-- ==== Sys2Proof/Word.lean ====
section
/-! DEFINITION. The widths of the Intel 8155/8156 (spec/00_scope.md R8, R10): bytes, 16-bit count registers, the
14-bit live count, and the 19-bit transaction descriptor of spec/30_encoding.md R70. -/

namespace Sys2Proof

/-- A byte: RAM contents, I/O registers, addresses, data (R8, R54). -/
abbrev Byte := BitVec 8

/-- A count register: length in bits 13:0, mode in bits 15:14 (R27, R28). -/
abbrev CountReg := BitVec 16

/-- A 14-bit count (R8, R160). -/
abbrev Count := BitVec 14

/-- A transaction descriptor: `kind[18:17] m[16] a[15:8] d[7:0]` (R70; D3, log 3). -/
abbrev Descriptor := BitVec 19

end Sys2Proof
end

