-- ==== Sys2Proof/Config.lean ====
section
/-! DEFINITION. What the source leaves open: the named parameters of spec/00_scope.md R9 with their defaults, and
the free values (no body, so nothing can be proved of the value itself). -/

namespace Sys2Proof.Config

/-- `P_VARIANT` (R2, D26; log 12): the variants differ only in chip-enable polarity, outside the chip. No rule reads it. -/
inductive Variant where
  | i8155
  | i8156
deriving DecidableEq, Repr

/-- The named parameters of R9 that some rule reads, and the variant.
`P_POWERON_RAM` is the argument of `Machine.State.created`; `P_UNUSED_READ` is `freeUnusedRead`. -/
structure Params where
  /-- `P_VARIANT` (D26; log 12). -/
  variant : Variant
  /-- `P_TC_LEAD` (D2; log 9): how many ticks before the end of the even half the terminal-count event fires. -/
  tcLead : Nat
  /-- `P_ODD_HALF_BIT` (D5; log 10): bit 0 of the running live count in the odd half. -/
  oddHalfBit : Bool
  /-- `P_TC_FLAG_ALL_MODES` (D21, C2; log 11): whether square-wave modes arm the terminal-count event too. -/
  tcFlagAllModes : Bool
deriving DecidableEq, Repr

/-- The parameters at the defaults R9 states (for the variant, which no rule reads, either would do). -/
def Params.standard : Params where
  variant := .i8155
  tcLead := 1
  oddHalfBit := true
  tcFlagAllModes := false

/-- Free value: the byte on the pins of chip `c` at its `n`-th free draw (R38, D23; log 6). Any value is possible. Two
chips share a value only if they bear one name `c` (DESIGN CHOICE; log 32). -/
opaque freeInput (c n : Nat) : Byte

/-- Free value: the byte an unused I/O index of chip `c` returns at its `n`-th free draw (R89, R126, D14; log 7). Two
chips share a value only if they bear one name `c` (DESIGN CHOICE; log 32). -/
opaque freeUnusedRead (c n : Nat) : Byte

end Sys2Proof.Config
end

