-- ==== Sys2Proof/Syntax.lean ====
section
/-! DEFINITION. The operations of the chip: one constructor of `Instr` per row of spec/opcode_table.json
(spec/30_encoding.md R91), and what a host can ask for (R101, R102, R105). -/

namespace Sys2Proof

/-- The two address spaces (R50): the mode select `m` and `io_mode_latch` (R22) are one of them; 0 = RAM, 1 = I/O. -/
inductive Space where
  | ram
  | io
deriving DecidableEq, Repr

/-- The three I/O ports (R3). -/
inductive Port where
  | A
  | B
  | C
deriving DecidableEq, Repr

/-- The 22 operations of R91. `a` is a RAM or latch address, `d` the data byte, `p` the peek flag. `x` holds the
address bits a[7:3] that an I/O access ignores (R53), and `low` the ignored a[0] of the two unused rows: they are
kept so that no bit of a descriptor is lost. The `d` of a WR_CMD row is the whole byte; that its bits 7:6 are the
row's is `Instr.wf` (R121 to R124). -/
inductive Instr where
  /-- ALE (R100). -/
  | ale (m : Space) (a : Byte)
  /-- RD_RAM (R103). -/
  | rdRam (a : Byte) (p : Bool)
  /-- WR_RAM (R104). -/
  | wrRam (a : Byte) (d : Byte)
  /-- RD_STATUS (R125). -/
  | rdStatus (x : BitVec 5) (p : Bool)
  /-- WR_CMD_NOP (R121). -/
  | wrCmdNop (x : BitVec 5) (d : Byte)
  /-- WR_CMD_STOP (R122). -/
  | wrCmdStop (x : BitVec 5) (d : Byte)
  /-- WR_CMD_STOPTC (R123). -/
  | wrCmdStoptc (x : BitVec 5) (d : Byte)
  /-- WR_CMD_START (R124). -/
  | wrCmdStart (x : BitVec 5) (d : Byte)
  /-- RD_PA (R141). -/
  | rdPa (x : BitVec 5) (p : Bool)
  /-- WR_PA (R142). -/
  | wrPa (x : BitVec 5) (d : Byte)
  /-- RD_PB (R143). -/
  | rdPb (x : BitVec 5) (p : Bool)
  /-- WR_PB (R144). -/
  | wrPb (x : BitVec 5) (d : Byte)
  /-- RD_PC (R145). -/
  | rdPc (x : BitVec 5) (p : Bool)
  /-- WR_PC (R146). -/
  | wrPc (x : BitVec 5) (d : Byte)
  /-- RD_TMRL (R161). -/
  | rdTmrl (x : BitVec 5) (p : Bool)
  /-- WR_TMRL (R163). -/
  | wrTmrl (x : BitVec 5) (d : Byte)
  /-- RD_TMRH (R162). -/
  | rdTmrh (x : BitVec 5) (p : Bool)
  /-- WR_TMRH (R164). -/
  | wrTmrh (x : BitVec 5) (d : Byte)
  /-- RD_UNUSED (R126). -/
  | rdUnused (x : BitVec 5) (low : Bool) (p : Bool)
  /-- WR_UNUSED (R127). -/
  | wrUnused (x : BitVec 5) (low : Bool) (d : Byte)
  /-- TICK (R186). -/
  | tick
  /-- RESET (R231). -/
  | reset
deriving DecidableEq, Repr

/-- The name of an operation's row in spec/opcode_table.json. -/
def Instr.mnemonic : Instr → String
  | .ale _ _ => "ALE"
  | .rdRam _ _ => "RD_RAM"
  | .wrRam _ _ => "WR_RAM"
  | .rdStatus _ _ => "RD_STATUS"
  | .wrCmdNop _ _ => "WR_CMD_NOP"
  | .wrCmdStop _ _ => "WR_CMD_STOP"
  | .wrCmdStoptc _ _ => "WR_CMD_STOPTC"
  | .wrCmdStart _ _ => "WR_CMD_START"
  | .rdPa _ _ => "RD_PA"
  | .wrPa _ _ => "WR_PA"
  | .rdPb _ _ => "RD_PB"
  | .wrPb _ _ => "WR_PB"
  | .rdPc _ _ => "RD_PC"
  | .wrPc _ _ => "WR_PC"
  | .rdTmrl _ _ => "RD_TMRL"
  | .wrTmrl _ _ => "WR_TMRL"
  | .rdTmrh _ _ => "RD_TMRH"
  | .wrTmrh _ _ => "WR_TMRH"
  | .rdUnused _ _ _ => "RD_UNUSED"
  | .wrUnused _ _ _ => "WR_UNUSED"
  | .tick => "TICK"
  | .reset => "RESET"

/-- What a host asks for. A direct access, an ALE, a clock tick or a reset is its descriptor (R72, R75, R105); a
latched read or write names no address: the decoder takes it from the latches (R101, R102). -/
inductive Request where
  | word (w : Descriptor)
  | latchedRead (p : Bool)
  | latchedWrite (d : Byte)
deriving DecidableEq, Repr

end Sys2Proof
end

