-- ==== Sys2Proof/WellFormed.lean ====
section
/-! DEFINITION. Which operations are well formed. Every field of `Instr` has exactly its encoded width, so one check
remains: a WR_CMD row's data byte carries that row's timer command in bits 7:6 (spec/41_command_status.md R121 to R124). -/

namespace Sys2Proof

/-- Whether an operation is one that some descriptor encodes. -/
def Instr.wf : Instr → Bool
  | .wrCmdNop _ d => d.extractLsb' 6 2 == 0b00#2
  | .wrCmdStop _ d => d.extractLsb' 6 2 == 0b01#2
  | .wrCmdStoptc _ d => d.extractLsb' 6 2 == 0b10#2
  | .wrCmdStart _ d => d.extractLsb' 6 2 == 0b11#2
  | .ale _ _ => true
  | .rdRam _ _ => true
  | .wrRam _ _ => true
  | .rdStatus _ _ => true
  | .rdPa _ _ => true
  | .wrPa _ _ => true
  | .rdPb _ _ => true
  | .wrPb _ _ => true
  | .rdPc _ _ => true
  | .wrPc _ _ => true
  | .rdTmrl _ _ => true
  | .wrTmrl _ _ => true
  | .rdTmrh _ _ => true
  | .wrTmrh _ _ => true
  | .rdUnused _ _ _ => true
  | .wrUnused _ _ _ => true
  | .tick => true
  | .reset => true

end Sys2Proof
end

