-- ==== Sys2Proof/Decode.lean ====
section
/-! DEFINITION. The transaction descriptor (spec/30_encoding.md R70 to R75, R90 to R93): its fields, the total decoder,
the encoder, the descriptor of a host request, and the table of R91 as masks and patterns. -/

namespace Sys2Proof

/-! ### Fields of a descriptor (R70) -/

/-- `kind`, bits 18:17 (R71). -/
def kindField (w : Descriptor) : BitVec 2 := w.extractLsb' 17 2

/-- The space a bit of `m` stands for: 0 = RAM, 1 = I/O (R70). -/
def spaceOfBit (b : Bool) : Space := if b then .io else .ram

/-- The bit of `m` that stands for a space (R70). -/
def bitOfSpace : Space → BitVec 1
  | .ram => 0#1
  | .io => 1#1

/-- `m`, bit 16. -/
def spaceField (w : Descriptor) : Space := spaceOfBit (w.getLsbD 16)

/-- `a`, bits 15:8. -/
def addrField (w : Descriptor) : Byte := w.extractLsb' 8 8

/-- `d`, bits 7:0. -/
def dataField (w : Descriptor) : Byte := w.extractLsb' 0 8

/-- The register index a[2:0] of an I/O access (R53, R76). -/
def ioIndex (a : Byte) : BitVec 3 := a.extractLsb' 0 3

/-- The address bits a[7:3] that an I/O access ignores (R53). -/
def ignoredBits (a : Byte) : BitVec 5 := a.extractLsb' 3 5

/-! ### Decoding (R91, R92) -/

/-- The reserved descriptors of R90, by class; they name no operation. -/
inductive Reserved where
  /-- An ALE descriptor with `d ≠ 0`. -/
  | aleData
  /-- An RD descriptor with `d[7:1] ≠ 0`. -/
  | readData
  /-- A HOST descriptor other than TICK and RESET. -/
  | host
deriving DecidableEq, Repr

/-- The read a space and address select (R76, R92). -/
def decodeRead (m : Space) (a : Byte) (p : Bool) : Instr :=
  match m with
  | .ram => .rdRam a p
  | .io =>
    let x := ignoredBits a
    if ioIndex a = 0b000#3 then .rdStatus x p
    else if ioIndex a = 0b001#3 then .rdPa x p
    else if ioIndex a = 0b010#3 then .rdPb x p
    else if ioIndex a = 0b011#3 then .rdPc x p
    else if ioIndex a = 0b100#3 then .rdTmrl x p
    else if ioIndex a = 0b101#3 then .rdTmrh x p
    else .rdUnused x (a.getLsbD 0) p

/-- The COMMAND row the data byte's bits 7:6 select (R78, R92). -/
def decodeCommand (x : BitVec 5) (d : Byte) : Instr :=
  if d.extractLsb' 6 2 = 0b00#2 then .wrCmdNop x d
  else if d.extractLsb' 6 2 = 0b01#2 then .wrCmdStop x d
  else if d.extractLsb' 6 2 = 0b10#2 then .wrCmdStoptc x d
  else .wrCmdStart x d

/-- The write a space and address select (R76, R92). -/
def decodeWrite (m : Space) (a d : Byte) : Instr :=
  match m with
  | .ram => .wrRam a d
  | .io =>
    let x := ignoredBits a
    if ioIndex a = 0b000#3 then decodeCommand x d
    else if ioIndex a = 0b001#3 then .wrPa x d
    else if ioIndex a = 0b010#3 then .wrPb x d
    else if ioIndex a = 0b011#3 then .wrPc x d
    else if ioIndex a = 0b100#3 then .wrTmrl x d
    else if ioIndex a = 0b101#3 then .wrTmrh x d
    else .wrUnused x (a.getLsbD 0) d

/-- The decoder: total on all 2^19 descriptors, each one operation or reserved by name (R90, R92). -/
def decode (w : Descriptor) : Except Reserved Instr :=
  if kindField w = 0b00#2 then
    if dataField w = 0 then .ok (.ale (spaceField w) (addrField w)) else .error .aleData
  else if kindField w = 0b01#2 then
    if (dataField w).extractLsb' 1 7 = 0 then
      .ok (decodeRead (spaceField w) (addrField w) ((dataField w).getLsbD 0))
    else .error .readData
  else if kindField w = 0b10#2 then .ok (decodeWrite (spaceField w) (addrField w) (dataField w))
  else if w.extractLsb' 0 17 = 0 then .ok .tick
  else if w.extractLsb' 0 17 = 1 then .ok .reset
  else .error .host

/-- A number as a descriptor: `nbits` of it are the word, and a descriptor has 19 bits, so a number with a bit above
bit 18 is none (log 3). -/
def descriptorOfNat (nbits w : Nat) : Option Descriptor :=
  if w % 2 ^ nbits < 2 ^ 19 then some (BitVec.ofNat 19 (w % 2 ^ nbits)) else none

/-- The operation the decoder reads from a word numbered as spec/opcode_table.json numbers it: none where it refuses. -/
def decodeTableWord (nbits w : Nat) : Option Instr :=
  match descriptorOfNat nbits w with
  | some v => (decode v).toOption
  | none => none

/-! ### Encoding (R70 to R75, R91) -/

/-- The ALE descriptor (R72). -/
def aleWord (m : Space) (a : Byte) : Descriptor := 0b00#2 ++ bitOfSpace m ++ a ++ 0#8

/-- The RD descriptor of a space and address (R73). -/
def readWord (m : Space) (a : Byte) (p : Bool) : Descriptor :=
  0b01#2 ++ bitOfSpace m ++ a ++ 0#7 ++ BitVec.ofBool p

/-- The WR descriptor of a space and address (R74). -/
def writeWord (m : Space) (a d : Byte) : Descriptor := 0b10#2 ++ bitOfSpace m ++ a ++ d

/-- The HOST descriptor of a sub-operation (R75). -/
def hostWord (d : Byte) : Descriptor := 0b11#2 ++ 0#1 ++ 0#8 ++ d

/-- The descriptor of an operation, row by row from R91. -/
def encode : Instr → Descriptor
  | .ale m a => aleWord m a
  | .rdRam a p => readWord .ram a p
  | .wrRam a d => writeWord .ram a d
  | .rdStatus x p => readWord .io (x ++ 0b000#3) p
  | .wrCmdNop x d => writeWord .io (x ++ 0b000#3) d
  | .wrCmdStop x d => writeWord .io (x ++ 0b000#3) d
  | .wrCmdStoptc x d => writeWord .io (x ++ 0b000#3) d
  | .wrCmdStart x d => writeWord .io (x ++ 0b000#3) d
  | .rdPa x p => readWord .io (x ++ 0b001#3) p
  | .wrPa x d => writeWord .io (x ++ 0b001#3) d
  | .rdPb x p => readWord .io (x ++ 0b010#3) p
  | .wrPb x d => writeWord .io (x ++ 0b010#3) d
  | .rdPc x p => readWord .io (x ++ 0b011#3) p
  | .wrPc x d => writeWord .io (x ++ 0b011#3) d
  | .rdTmrl x p => readWord .io (x ++ 0b100#3) p
  | .wrTmrl x d => writeWord .io (x ++ 0b100#3) d
  | .rdTmrh x p => readWord .io (x ++ 0b101#3) p
  | .wrTmrh x d => writeWord .io (x ++ 0b101#3) d
  | .rdUnused x low p => readWord .io (x ++ 0b11#2 ++ BitVec.ofBool low) p
  | .wrUnused x low d => writeWord .io (x ++ 0b11#2 ++ BitVec.ofBool low) d
  | .tick => hostWord 0x00#8
  | .reset => hostWord 0x01#8

/-- The descriptor of a host request, given the latches (R73, R74, R93): a latched access takes `m` and `a` from them
(R101, R102), a direct one carries its own (R105). -/
def Request.descriptor (r : Request) (m : Space) (a : Byte) : Descriptor :=
  match r with
  | .word w => w
  | .latchedRead p => readWord m a p
  | .latchedWrite d => writeWord m a d

/-! ### The table of R91 -/

/-- One row of the opcode table: a descriptor is the row's when its bits under the mask are the pattern. -/
structure OpRow where
  mnemonic : String
  pattern : Descriptor
  mask : Descriptor
deriving DecidableEq, Repr

/-- Whether a descriptor is a row's. -/
def OpRow.covers (r : OpRow) (w : Descriptor) : Bool := w &&& r.mask == r.pattern

/-- The rows of spec/opcode_table.json: match and mask. -/
def opcodeTable : List OpRow :=
  [⟨"ALE", 0x00000, 0x600FF⟩, ⟨"RD_RAM", 0x20000, 0x700FE⟩, ⟨"WR_RAM", 0x40000, 0x70000⟩,
   ⟨"RD_STATUS", 0x30000, 0x707FE⟩, ⟨"WR_CMD_NOP", 0x50000, 0x707C0⟩, ⟨"WR_CMD_STOP", 0x50040, 0x707C0⟩,
   ⟨"WR_CMD_STOPTC", 0x50080, 0x707C0⟩, ⟨"WR_CMD_START", 0x500C0, 0x707C0⟩] ++
  [⟨"RD_PA", 0x30100, 0x707FE⟩, ⟨"WR_PA", 0x50100, 0x70700⟩, ⟨"RD_PB", 0x30200, 0x707FE⟩,
   ⟨"WR_PB", 0x50200, 0x70700⟩, ⟨"RD_PC", 0x30300, 0x707FE⟩, ⟨"WR_PC", 0x50300, 0x70700⟩] ++
  [⟨"RD_TMRL", 0x30400, 0x707FE⟩, ⟨"WR_TMRL", 0x50400, 0x70700⟩, ⟨"RD_TMRH", 0x30500, 0x707FE⟩,
   ⟨"WR_TMRH", 0x50500, 0x70700⟩, ⟨"RD_UNUSED", 0x30600, 0x706FE⟩, ⟨"WR_UNUSED", 0x50600, 0x70600⟩,
   ⟨"TICK", 0x60000, 0x7FFFF⟩, ⟨"RESET", 0x60001, 0x7FFFF⟩]

end Sys2Proof
end

