-- ==== Sys2Proof/Machine/State.lean ====
section
/-! DEFINITION. The state of one chip (spec/10_state.md R20 to R34) with the interface that carries its inputs and
outputs (R11, R38, R39), the reasons a step stops, and the creation state (spec/70_reset_and_hazards.md R230). -/

namespace Sys2Proof.Machine

/-- An output event (R39): a port's output callback, or a change of the TO line. -/
inductive Event where
  | portOut (p : Port) (v : Byte)
  | toPin (level : Bool)
deriving DecidableEq, Repr

/-- RAM contents: addresses rising, no byte listed that an unlisted address reads as (log 13). -/
abbrev Memory := List Host.Cell

/-- Why a step could fault. There is no reason: the block raises no exception, fault or error, and every operation
has a next state (R210, R211), so this type has no constructor and nothing raises it (log 31). -/
inductive Fault where
deriving DecidableEq, Repr

/-- Why a step is refused. -/
inductive Refusal where
  /-- Raised by an arm of `exec` for an operation without a meaning (none is left). Safe: the run stops. -/
  | notModelled (mnemonic : String)
  /-- Raised by `step` when the descriptor it is given is reserved: it names no operation (R90; log 4). Safe. -/
  | reservedDescriptor (why : Reserved)
deriving DecidableEq, Repr

/-- One chip: the record of R20, then the model's own fields that carry the interface. Two-level bits are `Bool`s
(`true` = 1). -/
structure State where
  /-- 256 bytes (R21). -/
  ram : Memory
  /-- The space of the next latched transfer (R22). -/
  ioModeLatch : Space
  /-- The address of the next latched transfer (R23). -/
  addressLatch : Byte
  /-- The COMMAND register (R24, R77). -/
  command : Byte
  /-- The STATUS register; bit 6 is the timer flag (R25, R80). -/
  status : Byte
  /-- `output_latch[A]` (R26). -/
  latchA : Byte
  /-- `output_latch[B]` (R26). -/
  latchB : Byte
  /-- `output_latch[C]`, bits 7:6 always 0 (R26). -/
  latchC : Byte
  /-- The programmed length and mode (R27). -/
  countLength : CountReg
  /-- The length and mode of the running period, or the stop snapshot (R28). -/
  countLoaded : CountReg
  /-- 1 during the even half of a period (R29). -/
  countEvenPhase : Bool
  /-- The level driven on TO (R30, R36). -/
  toLevel : Bool
  /-- The half-period event: `some n` fires after n more ticks (R31). -/
  halfEvt : Option Nat
  /-- The terminal-count event (R32). -/
  tcEvt : Option Nat
  /-- The model-only mark: a feature the source leaves unspecified was touched (R34, R212; log 22). -/
  unmodelled : Bool
  /-- The model's own: host requests not yet done, oldest first (R7, R62; log 2). -/
  pending : List Request
  /-- The model's own: the environment's input draws still to come, in order (R38; log 6). -/
  inputDraws : List Byte
  /-- The model's own: how many free values have been taken (log 6, log 7). -/
  freeDraws : Nat
  /-- The model's own: the bytes the read operations have returned, oldest first (R11; log 5). -/
  returned : List Byte
  /-- The model's own: the output events so far, oldest first (R11, R39; log 5). -/
  trace : List Event
  /-- The model's own: the named parameters of R9; no step changes them (R44; log 8). -/
  params : Config.Params
  /-- The model's own: the chip's name among several, by which its free values are its own; no step changes it (log 32). -/
  chip : Nat
deriving DecidableEq, Repr

/-- The creation (power-on) state of R230 with the power-on RAM contents given: `P_POWERON_RAM` = zero is `created []`,
`P_POWERON_RAM` = arbitrary is `created m` for every RAM m (R21, D16; log 13). -/
def State.created (ram : Memory) : State where
  ram := ram
  ioModeLatch := .ram
  addressLatch := 0x00#8
  command := 0x00#8
  status := 0x00#8
  latchA := 0x00#8
  latchB := 0x00#8
  latchC := 0x00#8
  countLength := 0x0000#16
  countLoaded := 0x0000#16
  countEvenPhase := false
  toLevel := false
  halfEvt := none
  tcEvt := none
  unmodelled := false
  pending := []
  inputDraws := []
  freeDraws := 0
  returned := []
  trace := []
  params := Config.Params.standard
  chip := 0

/-- The state a run starts in: the creation state with `P_POWERON_RAM` = zero (R230, D25; log 1). The operation RESET
is `execReset`. -/
def State.reset : State := State.created []

end Sys2Proof.Machine
end

