-- ==== Sys2Proof/Machine/Operands.lean ====
section
/-! DEFINITION. The operand forms: fields of the COMMAND and count registers (spec/30_encoding.md R77 to R86), port modes
(spec/42_ports.md R140), the halves of a period (spec/00_scope.md R10), and RAM as addressed bytes (spec/20_memory.md R52). -/

namespace Sys2Proof.Machine

/-! ### The COMMAND register (R77 to R79) -/

/-- `TM`, bits 7:6 (R78). -/
def timerCommand (c : Byte) : BitVec 2 := c.extractLsb' 6 2

/-- `PC`, bits 3:2 (R79). -/
def portCField (c : Byte) : BitVec 2 := c.extractLsb' 2 2

/-- The three effective modes of a port (R140). -/
inductive PortMode where
  | input
  | output
  | strobed
deriving DecidableEq, Repr

/-- `ModeA`, from `command[0]` (R140). -/
def modeA (c : Byte) : PortMode := if c.getLsbD 0 then .output else .input

/-- `ModeB`, from `command[1]` (R140). -/
def modeB (c : Byte) : PortMode := if c.getLsbD 1 then .output else .input

/-- `ModeC`, from `command[3:2]` (R140). -/
def modeC (c : Byte) : PortMode :=
  if portCField c = 0b00#2 then .input else if portCField c = 0b11#2 then .output else .strobed

/-- Whether a COMMAND byte selects a strobed mode of port C or enables an interrupt: the features the source leaves
unspecified (R88, R120; D13, log 22). -/
def usesUnspecified (d : Byte) : Bool :=
  portCField d == 0b01#2 || portCField d == 0b10#2 || d.getLsbD 4 || d.getLsbD 5

/-- The synthetic byte of a reset, `command & 0xF0` (R231; D15, log 23). -/
def resetCommand (c : Byte) : Byte := c &&& 0xF0#8

/-! ### Count registers (R81 to R86) -/

/-- The length L, bits 13:0 (R86). -/
def lengthOf (c : CountReg) : Count := c.extractLsb' 0 14

/-- The mode M, bits 15:14 (R83). -/
def modeOf (c : CountReg) : BitVec 2 := c.extractLsb' 14 2

/-- AUTO_RELOAD, bit 14 (R83; D4, log 15). -/
def autoReload (c : CountReg) : Bool := c.getLsbD 14

/-- TC_PULSE, bit 15 (R83; D4, log 15). -/
def tcPulse (c : CountReg) : Bool := c.getLsbD 15

/-- A count register from its mode and length. -/
def countReg (m : BitVec 2) (l : Count) : CountReg := m ++ l

/-- A TMRL write: bits 7:0 replaced (R81, R163). -/
def withLowByte (c : CountReg) (d : Byte) : CountReg := c.extractLsb' 8 8 ++ d

/-- A TMRH write: bits 15:8 replaced (R82, R164). -/
def withHighByte (c : CountReg) (d : Byte) : CountReg := d ++ c.extractLsb' 0 8

/-- The ceiling of L/2, ticks of the odd half (R10, R189). -/
def halfUp (l : Nat) : Nat := (l + 1) / 2

/-- The floor of L/2, ticks of the even half (R10, R189). -/
def halfDown (l : Nat) : Nat := l / 2

/-! ### Port C (R85) -/

/-- Port C has 6 bits: what a write latches, and what the pins give (R85, R145, R146). -/
def portCBits (d : Byte) : Byte := d &&& 0x3F#8

/-- A register read of port C forces bits 7:6 (R85, R145). -/
def portCRead (v : Byte) : Byte := v ||| 0xC0#8

/-! ### RAM (R21, R52) -/

/-- What an unlisted address reads as (R21, R230; log 13). -/
def Memory.blank : Byte := 0x00#8

/-- The byte at an address. -/
def Memory.read (m : Memory) (a : Nat) : Byte :=
  match m with
  | [] => Memory.blank
  | (k, v) :: rest => if k = a then v else Memory.read rest a

/-- Put a byte before RAM contents that hold no address up to it; a blank byte is not listed. -/
def Memory.consCell (a : Nat) (v : Byte) (m : Memory) : Memory :=
  if v = Memory.blank then m else (a, v) :: m

/-- Write the byte at an address, keeping the canonical form (log 13). -/
def Memory.write (m : Memory) (a : Nat) (v : Byte) : Memory :=
  match m with
  | [] => Memory.consCell a v []
  | (k, w) :: rest =>
    if a < k then Memory.consCell a v ((k, w) :: rest)
    else if a = k then Memory.consCell a v rest
    else (k, w) :: Memory.write rest a v

/-- The canonical form: addresses of the 256 bytes, strictly rising, no blank byte listed (log 13). -/
abbrev Memory.wf (m : Memory) : Prop :=
  m.Pairwise (fun x y => x.1 < y.1) ∧ ∀ c ∈ m, c.1 < 256 ∧ c.2 ≠ Memory.blank

end Sys2Proof.Machine
end

