-- ==== Sys2Proof/Machine/Ops.lean ====
section
/-! DEFINITION. The primitives of spec/00_scope.md R11 over the state: RAM, outputs, input draws, the mark, the TO line,
and taking the next request of the host. The chip raises no exception, saves nothing and returns from nothing
(spec/60_exceptions.md R210, R211), so there is no exception entry and no return among them (log 31). -/

namespace Sys2Proof.Machine

/-- `MemRead(a, 1)` (R11, R52). -/
def State.memRead (s : State) (a : Byte) : Byte := s.ram.read a.toNat

/-- `MemWrite(a, 1, v)` (R11, R52). -/
def State.memWrite (s : State) (a v : Byte) : State := { s with ram := s.ram.write a.toNat v }

/-- `Emit(e)` (R11, R39). -/
def State.emit (s : State) (e : Event) : State := { s with trace := s.trace ++ [e] }

/-- A read operation returns a byte (R11). -/
def State.answer (s : State) (v : Byte) : State := { s with returned := s.returned ++ [v] }

/-- `Mark()` (R11, R34). -/
def State.mark (s : State) : State := { s with unmodelled := true }

/-- `Input(p)`: the byte on the pins at this instant, one independent value per read (R11, R38): the environment's next
draw, or a free value of this chip where none is listed (log 6, log 32). Port C uses its low 6 bits (`portCBits`). -/
def State.input (s : State) : Byte × State :=
  match s.inputDraws with
  | v :: rest => (v, { s with inputDraws := rest })
  | [] => (Config.freeInput s.chip s.freeDraws, { s with freeDraws := s.freeDraws + 1 })

/-- The free byte of a read of an unused index (`P_UNUSED_READ` = any value; R89, D14, log 7, log 32). -/
def State.unusedByte (s : State) : Byte × State :=
  (Config.freeUnusedRead s.chip s.freeDraws, { s with freeDraws := s.freeDraws + 1 })

/-- `SetTO(l)`: drive the TO line, with an event only when the level changes (R180). -/
def State.setTO (s : State) (level : Bool) : State :=
  if s.toLevel = level then s else ({ s with toLevel := level } : State).emit (.toPin level)

/-- The descriptor of the host's oldest request, and the state with that request taken (R62, R101, R102, R105; log 2). -/
def State.fetch (s : State) : Option (Descriptor × State) :=
  match s.pending with
  | [] => none
  | r :: rest => some (r.descriptor s.ioModeLatch s.addressLatch, { s with pending := rest })

/-- The host asks for more operations, after those already asked for (R62). -/
def State.request (s : State) (rs : List Request) : State := { s with pending := s.pending ++ rs }

end Sys2Proof.Machine
end

