-- ==== Sys2Proof/Machine/Bus.lean ====
section
/-! DEFINITION. The bus family: ALE, RD_RAM, WR_RAM (spec/40_bus_protocol.md R100, R103, R104). -/

namespace Sys2Proof.Machine

/-- ALE: store the space and the whole 8-bit address, unconditionally (R100). -/
def execAle (m : Space) (a : Byte) (s : State) : Host.Outcome State Fault Refusal :=
  .next { s with ioModeLatch := m, addressLatch := a }

/-- RD_RAM: return the byte; the peek flag has no effect (R103). -/
def execRdRam (a : Byte) (_p : Bool) (s : State) : Host.Outcome State Fault Refusal :=
  .next (s.answer (s.memRead a))

/-- WR_RAM: store the byte (R104). -/
def execWrRam (a d : Byte) (s : State) : Host.Outcome State Fault Refusal :=
  .next (s.memWrite a d)

end Sys2Proof.Machine
end

