-- ==== Sys2Proof/Machine/Flags.lean ====
section
/-! DEFINITION. The one flag: STATUS bit 6, the terminal-count flag (spec/30_encoding.md R80, spec/10_state.md R25). -/

namespace Sys2Proof.Machine

/-- The terminal-count flag of a STATUS byte. -/
def timerFlag (v : Byte) : Bool := v.getLsbD 6

/-- `status[6] <- 1`: done by the terminal-count event only (R185). -/
def setTimerFlag (v : Byte) : Byte := v ||| 0x40#8

/-- `status[6] <- 0`: done by a non-peek status read and by reset only (R125, R231). -/
def clearTimerFlag (v : Byte) : Byte := v &&& 0xBF#8

end Sys2Proof.Machine
end

