-- ==== Sys2Proof/Machine/Timer.lean ====
section
/-! DEFINITION. The timer: the live count (spec/43_timer_registers.md R160), the procedures and events of
spec/44_timer_engine.md R180 to R187, and the timer's three states (spec/10_state.md R35). -/

namespace Sys2Proof.Machine

/-- The three timer states of R35. -/
inductive TimerState where
  | stopped
  | countingOddHalf
  | countingEvenHalf
deriving DecidableEq, Repr

/-- The timer state, read from the pending half-period event and the phase (R35). -/
def State.timerState (s : State) : TimerState :=
  match s.halfEvt with
  | none => .stopped
  | some _ => if s.countEvenPhase then .countingEvenHalf else .countingOddHalf

/-- The parity bit of the running count: 0 in the even half, `P_ODD_HALF_BIT` in the odd (R160; D5, log 10). -/
def State.parityBit (s : State) : Nat := if s.countEvenPhase then 0 else s.params.oddHalfBit.toNat

/-- `LiveCount()`: computed, not stored. Running: `min((h << 1) | b, L)`, where the shift leaves bit 0 free for b;
stopped: the length or snapshot in `count_loaded` (R160; C1, D1, D5, D6; log 10, log 14, log 16). -/
def State.liveCount (s : State) : Count :=
  match s.halfEvt with
  | some h => BitVec.ofNat 14 (min (2 * h + s.parityBit) (lengthOf s.countLoaded).toNat)
  | none => lengthOf s.countLoaded

/-- `TimerStop()`: the count is computed while the event is still armed, both events are disarmed, the snapshot keeps
the mode bits, TO goes to 1 (R182; D7, log 17). -/
def State.timerStop (s : State) : State :=
  ({ s with
      halfEvt := none
      tcEvt := none
      countLoaded := countReg (modeOf s.countLoaded) s.liveCount } : State).setTO true

/-- `TimerReload()`: start a period with the programmed values, or stop at a length below 2 (R181, R190). -/
def State.timerReload (s : State) : State :=
  let loaded : State := { s with countLoaded := s.countLength }
  if (lengthOf s.countLength).toNat < 2 then loaded.timerStop
  else
    ({ loaded with
        countEvenPhase := false
        halfEvt := some (halfUp (lengthOf s.countLength).toNat) } : State).setTO true

/-- `Arm(tc_evt, max(half_down(L) - P_TC_LEAD, 0))` (R183; D2, log 9). -/
def State.armTc (s : State) : State :=
  { s with tcEvt := some (halfDown (lengthOf s.countLoaded).toNat - s.params.tcLead) }

/-- The half-period event in the odd half: the odd half has ended (R183; D2, D21; log 9, log 11). -/
def State.oddHalfEnd (s : State) : State :=
  let even : State :=
    { s with halfEvt := some (halfDown (lengthOf s.countLoaded).toNat), countEvenPhase := true }
  if tcPulse s.countLoaded then even.armTc
  else if s.params.tcFlagAllModes then (even.setTO false).armTc
  else even.setTO false

/-- The half-period event in the even half: terminal count (R184; D8, D9; log 18, log 19). -/
def State.evenHalfEnd (s : State) : State :=
  let high : State := { s.setTO true with countEvenPhase := false }
  if !autoReload s.countLoaded || timerCommand s.command == 0b10#2 then high.timerStop
  else high.timerReload

/-- The terminal-count event: the low pulse in TC_PULSE modes, and the flag in any mode (R185). -/
def State.tcEvent (s : State) : State :=
  let pulsed := if tcPulse s.countLoaded then s.setTO false else s
  { pulsed with status := setTimerFlag pulsed.status }

/-- The next due event of R187, disarmed before its handler runs; the terminal-count event goes first (D22, log 25). -/
def State.fireNext (s : State) : Option State :=
  if s.tcEvt = some 0 then some ({ s with tcEvt := none } : State).tcEvent
  else if s.halfEvt = some 0 then
    if s.countEvenPhase then some ({ s with halfEvt := none } : State).evenHalfEnd
    else some ({ s with halfEvt := none } : State).oddHalfEnd
  else none

/-- The loop of R187 for at most `n` events. -/
def State.fireUpTo (n : Nat) (s : State) : State :=
  match n with
  | 0 => s
  | n + 1 =>
    match s.fireNext with
    | some t => t.fireUpTo n
    | none => s

/-- `FireDue()`: fire every due event. No state whatever needs more than four firings: a terminal-count event, the end
of an odd half, the terminal-count event it armed, the end of the even half; after that nothing is due
(`Laws.fireDue_none_due`; log 27). -/
def State.fireDue (s : State) : State := s.fireUpTo 4

/-- One tick less on each pending counter (R186; log 14). -/
def State.countDown (s : State) : State :=
  { s with halfEvt := s.halfEvt.map (· - 1), tcEvt := s.tcEvt.map (· - 1) }

/-- One period of the timer input clock (R186). -/
def State.clockTick (s : State) : State := s.countDown.fireDue

/-- `n` periods of the timer input clock, one after the other (R186). -/
def State.clockTicks (n : Nat) (s : State) : State :=
  match n with
  | 0 => s
  | n + 1 => s.clockTick.clockTicks n

end Sys2Proof.Machine
end

