-- ==== Sys2Proof/Machine/Command.lean ====
section
/-! DEFINITION. The command and status family (spec/41_command_status.md R120 to R127). -/

namespace Sys2Proof.Machine

/-- Drive port A's latch at once when the write turns port A from input to output (R120). -/
def State.flushA (s : State) (old d : Byte) : State :=
  if d.getLsbD 0 && !old.getLsbD 0 then s.emit (.portOut .A s.latchA) else s

/-- Drive port B's latch at once when the write turns port B from input to output (R120). -/
def State.flushB (s : State) (old d : Byte) : State :=
  if d.getLsbD 1 && !old.getLsbD 1 then s.emit (.portOut .B s.latchB) else s

/-- Set the mark when the byte touches a feature the source leaves unspecified (R88, R120; log 22). -/
def State.markUnspecified (s : State) (d : Byte) : State :=
  if usesUnspecified d then s.mark else s

/-- `CommandWrite(d)` without its TM action: store, flush port A, flush port B, mark (R120; D10, D12; log 20, log 21). -/
def State.commandWrite (s : State) (d : Byte) : State :=
  let old := s.command
  let stored : State := { s with command := d }
  ((stored.flushA old d).flushB old d).markUnspecified d

/-- The TM action of START: nothing while running, else a reload (R124). -/
def State.timerStart (s : State) : State :=
  match s.halfEvt with
  | some _ => s
  | none => s.timerReload

/-- The TM action a COMMAND byte's bits 7:6 name (R78, R121 to R124). -/
def State.timerAction (s : State) (tm : BitVec 2) : State :=
  if tm = 0b01#2 then s.timerStop else if tm = 0b11#2 then s.timerStart else s

/-- WR_CMD_NOP: no timer action (R121). -/
def execWrCmdNop (d : Byte) (s : State) : Host.Outcome State Fault Refusal :=
  .next (s.commandWrite d)

/-- WR_CMD_STOP: stop the timer (R122). -/
def execWrCmdStop (d : Byte) (s : State) : Host.Outcome State Fault Refusal :=
  .next (s.commandWrite d).timerStop

/-- WR_CMD_STOPTC: no immediate action; the record is `command[7:6]` itself (R123; D9, log 19). -/
def execWrCmdStoptc (d : Byte) (s : State) : Host.Outcome State Fault Refusal :=
  .next (s.commandWrite d)

/-- WR_CMD_START: start a stopped timer; a running one is left alone (R124; C9). -/
def execWrCmdStart (d : Byte) (s : State) : Host.Outcome State Fault Refusal :=
  .next (s.commandWrite d).timerStart

/-- RD_STATUS: return the register, then clear the flag unless the read is a peek (R125). -/
def execRdStatus (p : Bool) (s : State) : Host.Outcome State Fault Refusal :=
  let read := s.answer s.status
  .next (if p then read else { read with status := clearTimerFlag read.status })

/-- RD_UNUSED: return a free byte; nothing of the chip changes (R126; D14, log 7). -/
def execRdUnused (_p : Bool) (s : State) : Host.Outcome State Fault Refusal :=
  let (v, t) := s.unusedByte
  .next (t.answer v)

/-- WR_UNUSED: no effect (R127; D14, log 7). -/
def execWrUnused (_d : Byte) (s : State) : Host.Outcome State Fault Refusal :=
  .next s

end Sys2Proof.Machine
end

