-- ==== Sys2Proof/Machine/Count.lean ====
section
/-! DEFINITION. The count register family: RD_TMRL, RD_TMRH, WR_TMRL, WR_TMRH (spec/43_timer_registers.md R161 to R164). -/

namespace Sys2Proof.Machine

/-- RD_TMRL: `LiveCount()[7:0]` (R81, R161). -/
def execRdTmrl (_p : Bool) (s : State) : Host.Outcome State Fault Refusal :=
  .next (s.answer (s.liveCount.extractLsb' 0 8))

/-- RD_TMRH: the current mode in bits 7:6 over `LiveCount()[13:8]` (R84, R162; D8, log 18). -/
def execRdTmrh (_p : Bool) (s : State) : Host.Outcome State Fault Refusal :=
  .next (s.answer (modeOf s.countLoaded ++ s.liveCount.extractLsb' 8 6))

/-- WR_TMRL: `count_length[7:0] <- d` (R81, R163). -/
def execWrTmrl (d : Byte) (s : State) : Host.Outcome State Fault Refusal :=
  .next { s with countLength := withLowByte s.countLength d }

/-- WR_TMRH: `count_length[15:8] <- d` (R82, R164). -/
def execWrTmrh (d : Byte) (s : State) : Host.Outcome State Fault Refusal :=
  .next { s with countLength := withHighByte s.countLength d }

end Sys2Proof.Machine
end

