-- ==== Sys2Proof/Machine/HostInput.lean ====
section
/-! DEFINITION. The host inputs that are no bus transfer: TICK (spec/44_timer_engine.md R186) and RESET
(spec/70_reset_and_hazards.md R231). -/

namespace Sys2Proof.Machine

/-- TICK: every pending counter down by one, then every due event (R186, R187). -/
def execTick (s : State) : Host.Outcome State Fault Refusal :=
  .next s.clockTick

/-- RESET: clear the output latches, rewrite COMMAND with bits 3:0 cleared and run its TM action, clear the timer flag,
stop the timer. RAM, the address latches and `count_length` are kept (R231 to R233; D15, log 23). -/
def execReset (s : State) : Host.Outcome State Fault Refusal :=
  let d := resetCommand s.command
  let cleared : State := { s with latchA := 0x00#8, latchB := 0x00#8, latchC := 0x00#8 }
  let rewritten := (cleared.commandWrite d).timerAction (timerCommand d)
  let flagged : State := { rewritten with status := clearTimerFlag rewritten.status }
  .next flagged.timerStop

end Sys2Proof.Machine
end

