-- ==== Sys2Proof/Machine/Ports.lean ====
section
/-! DEFINITION. The port family (spec/42_ports.md R140 to R146) and the pins the chip drives (spec/10_state.md R36, R37). -/

namespace Sys2Proof.Machine

/-- RD_PA: the latch in output mode, the pins in input mode (R141). Port A is never strobed (R140). -/
def execRdPa (_p : Bool) (s : State) : Host.Outcome State Fault Refusal :=
  match modeA s.command with
  | .output => .next (s.answer s.latchA)
  | .input | .strobed => let (v, t) := s.input; .next (t.answer v)

/-- WR_PA: the latch always, the output event in output mode only (R142; D11, log 21). -/
def execWrPa (d : Byte) (s : State) : Host.Outcome State Fault Refusal :=
  let latched : State := { s with latchA := d }
  match modeA s.command with
  | .output => .next (latched.emit (.portOut .A d))
  | .input | .strobed => .next latched

/-- RD_PB: as port A, with `command[1]` (R143). -/
def execRdPb (_p : Bool) (s : State) : Host.Outcome State Fault Refusal :=
  match modeB s.command with
  | .output => .next (s.answer s.latchB)
  | .input | .strobed => let (v, t) := s.input; .next (t.answer v)

/-- WR_PB: as port A, with `command[1]` (R144; D11, log 21). -/
def execWrPb (d : Byte) (s : State) : Host.Outcome State Fault Refusal :=
  let latched : State := { s with latchB := d }
  match modeB s.command with
  | .output => .next (latched.emit (.portOut .B d))
  | .input | .strobed => .next latched

/-- RD_PC: six bits from the pins or the latch, or the source's 0 with the mark in a strobed mode; bits 7:6 are forced
to 1 (R145; C10, D13; log 22). -/
def execRdPc (_p : Bool) (s : State) : Host.Outcome State Fault Refusal :=
  match modeC s.command with
  | .input => let (v, t) := s.input; .next (t.answer (portCRead (portCBits v)))
  | .output => .next (s.answer (portCRead s.latchC))
  | .strobed => .next (s.mark.answer (portCRead 0x00#8))

/-- WR_PC: six bits latched always, the output event in output mode only (R146; D11, log 21). -/
def execWrPc (d : Byte) (s : State) : Host.Outcome State Fault Refusal :=
  let latched : State := { s with latchC := portCBits d }
  match modeC s.command with
  | .output => .next (latched.emit (.portOut .C (portCBits d)))
  | .input | .strobed => .next latched

/-! ### The pins (R36, R37) -/

/-- What the chip does to a port's pins: it drives a value, drives nothing, or this spec says nothing (R37; log 26). -/
inductive Drive (n : Nat) where
  | driven (v : BitVec n)
  | released
  | unspecified
deriving DecidableEq, Repr

/-- Port A's pins (R37). -/
def State.pinsA (s : State) : Drive 8 :=
  match modeA s.command with
  | .output => .driven s.latchA
  | .input | .strobed => .released

/-- Port B's pins (R37). -/
def State.pinsB (s : State) : Drive 8 :=
  match modeB s.command with
  | .output => .driven s.latchB
  | .input | .strobed => .released

/-- Port C's six pins (R37). -/
def State.pinsC (s : State) : Drive 6 :=
  match modeC s.command with
  | .output => .driven (s.latchC.extractLsb' 0 6)
  | .input => .released
  | .strobed => .unspecified

/-- The TO pin carries `to_level` at all times (R36). -/
def State.pinTO (s : State) : Bool := s.toLevel

end Sys2Proof.Machine
end

