-- ==== Sys2Proof/Machine/Dispatch.lean ====
section
/-! DEFINITION. One arm per operation of spec/30_encoding.md R91, each one call of its meaning. -/

namespace Sys2Proof.Machine

def exec (i : Instr) (s : State) : Host.Outcome State Fault Refusal :=
  match i with
  | .ale m a => Sys2Proof.Machine.execAle m a s
  | .rdRam a p => Sys2Proof.Machine.execRdRam a p s
  | .wrRam a d => Sys2Proof.Machine.execWrRam a d s
  | .rdStatus _ p => Sys2Proof.Machine.execRdStatus p s
  | .wrCmdNop _ d => Sys2Proof.Machine.execWrCmdNop d s
  | .wrCmdStop _ d => Sys2Proof.Machine.execWrCmdStop d s
  | .wrCmdStoptc _ d => Sys2Proof.Machine.execWrCmdStoptc d s
  | .wrCmdStart _ d => Sys2Proof.Machine.execWrCmdStart d s
  | .rdPa _ p => Sys2Proof.Machine.execRdPa p s
  | .wrPa _ d => Sys2Proof.Machine.execWrPa d s
  | .rdPb _ p => Sys2Proof.Machine.execRdPb p s
  | .wrPb _ d => Sys2Proof.Machine.execWrPb d s
  | .rdPc _ p => Sys2Proof.Machine.execRdPc p s
  | .wrPc _ d => Sys2Proof.Machine.execWrPc d s
  | .rdTmrl _ p => Sys2Proof.Machine.execRdTmrl p s
  | .wrTmrl _ d => Sys2Proof.Machine.execWrTmrl d s
  | .rdTmrh _ p => Sys2Proof.Machine.execRdTmrh p s
  | .wrTmrh _ d => Sys2Proof.Machine.execWrTmrh d s
  | .rdUnused _ _ p => Sys2Proof.Machine.execRdUnused p s
  | .wrUnused _ _ d => Sys2Proof.Machine.execWrUnused d s
  | .tick => Sys2Proof.Machine.execTick s
  | .reset => Sys2Proof.Machine.execReset s

end Sys2Proof.Machine
end

