-- ==== Sys2Proof/Machine/Step.lean ====
section
/-! DEFINITION. One step: the host's oldest request becomes a descriptor, is decoded and executed (spec/20_memory.md R57,
R62; spec/30_encoding.md R90, R92). With nothing asked, nothing happens (log 2). -/

namespace Sys2Proof.Machine

def step (s : State) : Host.Outcome State Fault Refusal :=
  match s.fetch with
  | none => .next s
  | some (w, taken) =>
    match decode w with
    | .ok i => exec i taken
    | .error why => .refused (.reservedDescriptor why)

/-- The state in which the host's next request is the word's descriptor, before all it has asked for already. A number
that is no descriptor is not placed (log 2, log 3). -/
def State.withFetchWord (s : State) (nbits w : Nat) : State :=
  match descriptorOfNat nbits w with
  | some v => { s with pending := .word v :: s.pending }
  | none => s

end Sys2Proof.Machine
end

