-- ==== Sys2Proof/Machine/Script.lean ====
section
/-! DEFINITION. The host-script notation (spec/30_encoding.md R94), its pseudo-operations (R95), and several chips in one
system (spec/60_exceptions.md R219). -/

namespace Sys2Proof.Machine

/-- One line of a host script: the operations of R94 and the pseudo-operations of R95. -/
inductive Line where
  /-- `ALE RAM, a` / `ALE IO, a` -/
  | ale (m : Space) (a : Byte)
  /-- `RD` / `RD.PEEK`, latched. -/
  | rd (p : Bool)
  /-- `WR d`, latched. -/
  | wr (d : Byte)
  /-- `RD m, a` / `RD.PEEK m, a`, direct. -/
  | rdAt (m : Space) (a : Byte) (p : Bool)
  /-- `WR m, a, d`, direct. -/
  | wrAt (m : Space) (a d : Byte)
  /-- `TICK` -/
  | tick
  /-- `RESET` -/
  | reset
  /-- `OUT r, d` -/
  | outReg (r d : Byte)
  /-- `IN r` -/
  | inReg (r : Byte)
  /-- `POKE a, d` -/
  | poke (a d : Byte)
  /-- `PEEK a` -/
  | peek (a : Byte)
  /-- `TICK n` -/
  | ticks (n : Nat)
  /-- `SETCOUNT L, M` -/
  | setCount (l : Count) (m : BitVec 2)
deriving DecidableEq, Repr

/-- `OUT r, d`: `ALE IO, r` then `WR d` (R95). -/
def outRequests (r d : Byte) : List Request := [.word (aleWord .io r), .latchedWrite d]

/-- The requests a line stands for, in order (R94, R95). -/
def Line.requests : Line → List Request
  | .ale m a => [.word (aleWord m a)]
  | .rd p => [.latchedRead p]
  | .wr d => [.latchedWrite d]
  | .rdAt m a p => [.word (readWord m a p)]
  | .wrAt m a d => [.word (writeWord m a d)]
  | .tick => [.word (hostWord 0x00#8)]
  | .reset => [.word (hostWord 0x01#8)]
  | .outReg r d => outRequests r d
  | .inReg r => [.word (aleWord .io r), .latchedRead false]
  | .poke a d => [.word (aleWord .ram a), .latchedWrite d]
  | .peek a => [.word (aleWord .ram a), .latchedRead false]
  | .ticks n => List.replicate n (.word (hostWord 0x00#8))
  | .setCount l m => outRequests 4#8 (l.extractLsb' 0 8) ++ outRequests 5#8 (m ++ l.extractLsb' 8 6)

/-- The requests of a script. -/
def assemble (script : List Line) : List Request := script.flatMap Line.requests

/-- Several chips: each has its own state (R219). Nothing relates the free values of two chips that differ in name; chips
of one name would draw the same ones, so a system of independent chips is one with `System.namesDistinct` (log 32). -/
abbrev System := List State

/-- No two chips bear one name, so none of their free values are related (log 32). -/
abbrev System.namesDistinct (sys : System) : Prop := (sys.map State.chip).Nodup

/-- `n` chips as created, named 0 to n - 1 (R219, R230; log 32). -/
def System.created (n : Nat) : System := (List.range n).map fun c => { State.reset with chip := c }

/-- One chip of a system takes a step; the others are untouched, and nothing passes between chips (R219). -/
def System.stepChip (sys : System) (n : Nat) : Host.Outcome System Fault Refusal :=
  match sys[n]? with
  | none => .next sys
  | some s =>
    match step s with
    | .next t => .next (sys.set n t)
    | .fault r => .fault r
    | .refused r => .refused r

end Sys2Proof.Machine
end

