-- ==== Sys2Proof/Safety.lean ====
section
/-! DEFINITION. The terms claims are stated in: which runs count, the invariant of every reachable state
(spec/10_state.md R43), what "no chip state changes" means, and what a trace says. -/

namespace Sys2Proof.Machine

/-- A run counts only if its last state carries no mark: the source leaves the marked features unspecified (R34, R212). -/
def State.Trusted (s : State) : Prop := s.unmodelled = false

/-- The invariant every step keeps (R43 (a), (b), (d), (e); R33; log 13, log 22). R43 (c) is `HighWhenStopped`. -/
structure State.Inv (s : State) : Prop where
  /-- RAM is in its canonical form (log 13). -/
  ram : s.ram.wf
  /-- `output_latch[C][7:6] = 0` (R43 (d)). -/
  portC : s.latchC &&& 0xC0#8 = 0#8
  /-- `status & 0xBF = 0` (R43 (e)). -/
  status : s.status &&& 0xBF#8 = 0#8
  /-- A running timer has 1 to 8192 ticks to its event and a length of at least 2 (R43 (b), R33, R190). -/
  half : ∀ h, s.halfEvt = some h → 1 ≤ h ∧ h ≤ 8192 ∧ 2 ≤ (lengthOf s.countLoaded).toNat
  /-- A pending terminal-count event lies in the even half, not after its end, and with `P_TC_FLAG_ALL_MODES` = false
  in a TC_PULSE mode (R43 (a), R33). -/
  tc : ∀ n, s.tcEvt = some n → 1 ≤ n ∧ s.countEvenPhase = true ∧ (∃ h, s.halfEvt = some h ∧ n ≤ h) ∧
    (s.params.tcFlagAllModes = false → tcPulse s.countLoaded = true)
  /-- COMMAND holds an unspecified feature only with the mark set (R120, R34). -/
  mark : usesUnspecified s.command = true → s.unmodelled = true

/-- TO is 1 whenever the timer is stopped (R43 (c)): so from the first TimerStop or TimerReload on. -/
def State.HighWhenStopped (s : State) : Prop := s.halfEvt = none → s.toLevel = true

/-- The two states agree on all chip state: every field of R20 but the model-only mark (R34). -/
def SameChip (s t : State) : Prop :=
  t.ram = s.ram ∧ t.ioModeLatch = s.ioModeLatch ∧ t.addressLatch = s.addressLatch ∧ t.command = s.command ∧
  t.status = s.status ∧ t.latchA = s.latchA ∧ t.latchB = s.latchB ∧ t.latchC = s.latchC ∧
  t.countLength = s.countLength ∧ t.countLoaded = s.countLoaded ∧ t.countEvenPhase = s.countEvenPhase ∧
  t.toLevel = s.toLevel ∧ t.halfEvt = s.halfEvt ∧ t.tcEvt = s.tcEvt

/-- The two states agree on the timer: its count, its events, its phase and TO. -/
def SameTimer (s t : State) : Prop :=
  t.countLoaded = s.countLoaded ∧ t.countEvenPhase = s.countEvenPhase ∧ t.toLevel = s.toLevel ∧
  t.halfEvt = s.halfEvt ∧ t.tcEvt = s.tcEvt

/-- The port events of a COMMAND write (R120): a port turned from input to output drives its latch, A before B. -/
def portFlushes (s : State) (d : Byte) : List Event :=
  (if d.getLsbD 0 = true ∧ s.command.getLsbD 0 = false then [.portOut .A s.latchA] else []) ++
  (if d.getLsbD 1 = true ∧ s.command.getLsbD 1 = false then [.portOut .B s.latchB] else [])

/-- The events of driving TO to a level (R180): one if the level changes, else none. -/
def toChange (old new : Bool) : List Event := if old = new then [] else [.toPin new]

/-- Follow the TO events of a trace from a level: the level after them, or none if one of them is no change (R39, R180). -/
def replayTO (level : Bool) : List Event → Option Bool
  | [] => some level
  | .portOut _ _ :: rest => replayTO level rest
  | .toPin l :: rest => if l = level then none else replayTO l rest

/-- The checkable part of the host's boot duty (R234; D25): RESET first, and both count bytes written before the first
START. What to latch or drive first depends on what the host means to do and is not checked. -/
def bootOrder (ops : List Instr) : Bool :=
  let names := ops.map Instr.mnemonic
  let before := names.takeWhile (· != "WR_CMD_START")
  names.head? == some "RESET" &&
    (before.length == names.length || (before.contains "WR_TMRL" && before.contains "WR_TMRH"))

end Sys2Proof.Machine
end

