-- ==== Sys2Proof/Certificates/Slice0/Obligations.lean ====
section
/-! DEFINITION. The statements for the provers. Each docstring names the rule of spec/ it formalises, and the spec's own
decisions (D<n>) and the assumption log entries it rests on. -/

open Sys2Proof Sys2Proof.Machine

/-! ### Encoding (30_encoding.md) -/

/-- Decoding the descriptor of a well-formed operation gives it back, with every operand and every ignored address bit
(R70 to R75, R91; the descriptor is the spec's own construction, D3, log 3). -/
def Obligations.DecodeEncodeRoundTrip : Prop :=
  ∀ i : Instr, i.wf = true → decode (encode i) = .ok i

/-- A descriptor that decodes is the encoding of what it decodes to, and that is well formed (R91, R93; D3, log 3). -/
def Obligations.EncodeDecodeRoundTrip : Prop :=
  ∀ (w : Descriptor) (i : Instr), decode w = .ok i → i.wf = true ∧ encode i = w

/-- The decoder refuses exactly the reserved descriptors, each class by name (R90, R92; D3, log 4). -/
def Obligations.ReservedDescriptorsExactly : Prop :=
  ∀ w : Descriptor,
    (decode w = .error .aleData ↔ w.extractLsb' 17 2 = 0b00#2 ∧ w.extractLsb' 0 8 ≠ 0x00#8) ∧
    (decode w = .error .readData ↔ w.extractLsb' 17 2 = 0b01#2 ∧ w.extractLsb' 1 7 ≠ 0#7) ∧
    (decode w = .error .host ↔ w.extractLsb' 17 2 = 0b11#2 ∧ w.extractLsb' 0 17 ≠ 0#17 ∧ w.extractLsb' 0 17 ≠ 1#17)

/-- Each descriptor that is not reserved is covered by exactly one row of the opcode table, the row of the operation it
decodes to; a reserved one by none (R91, R92; D3, log 3). -/
def Obligations.EveryDescriptorHasItsOneRow : Prop :=
  ∀ w : Descriptor,
    (∀ i, decode w = .ok i → (opcodeTable.filter (·.covers w)).map (·.mnemonic) = [i.mnemonic]) ∧
    (∀ e, decode w = .error e → opcodeTable.filter (·.covers w) = [])

/-- Words written out from the encodings decode to the operations they stand for (R91; 95_test_vectors.md L2.1). -/
def Obligations.SampleWordsDecode : Prop :=
  decode 0b00_0_00010000_00000000#19 = .ok (.ale .ram 0x10#8) ∧
  decode 0b01_0_00010000_00000000#19 = .ok (.rdRam 0x10#8 false) ∧
  decode 0b10_0_00010000_10100101#19 = .ok (.wrRam 0x10#8 0xA5#8) ∧
  decode 0b01_1_11111000_00000001#19 = .ok (.rdStatus 0b11111#5 true) ∧
  decode 0b10_1_00000000_01000000#19 = .ok (.wrCmdStop 0#5 0x40#8) ∧
  decode 0b10_1_00000000_11000000#19 = .ok (.wrCmdStart 0#5 0xC0#8) ∧
  decode 0b01_1_00101100_00000000#19 = .ok (.rdTmrl 0b00101#5 false) ∧
  decode 0b10_1_11111111_11111111#19 = .ok (.wrUnused 0b11111#5 true 0xFF#8) ∧
  decode 0b11_0_00000000_00000000#19 = .ok .tick ∧
  decode 0b11_0_00000000_00000001#19 = .ok .reset

/-- I/O addresses that agree in their low three bits reach the same register: the read and the write at either does the
same (R53). -/
def Obligations.IoAddressesAlias : Prop :=
  ∀ a b : Byte, a.extractLsb' 0 3 = b.extractLsb' 0 3 →
    (∀ p, ∃ i j, decode (readWord .io a p) = .ok i ∧ decode (readWord .io b p) = .ok j ∧ ∀ s, exec i s = exec j s) ∧
    (∀ d, ∃ i j, decode (writeWord .io a d) = .ok i ∧ decode (writeWord .io b d) = .ok j ∧ ∀ s, exec i s = exec j s)

/-! ### Steps and the bus (20_memory.md, 40_bus_protocol.md) -/

/-- When the host's oldest request, made a descriptor with the latches, decodes to an operation, a step is that operation
on the state with the request taken (R57, R62, R93; how a run is driven is the model's choice, log 2). -/
def Obligations.StepRunsTheDecodedRequest : Prop :=
  ∀ (s : State) (r : Request) (rest : List Request) (i : Instr),
    s.pending = r :: rest → decode (r.descriptor s.ioModeLatch s.addressLatch) = .ok i →
    step s = exec i { s with pending := rest }

/-- A reserved descriptor names no operation: the step is refused with its class (R90; D3, log 4). With nothing asked,
nothing happens (log 2). -/
def Obligations.StepRefusesReservedAndIdles : Prop :=
  (∀ (s : State) (w : Descriptor) (rest : List Request) (e : Reserved),
    s.pending = .word w :: rest → decode w = .error e → step s = .refused (.reservedDescriptor e)) ∧
  (∀ s : State, s.pending = [] → step s = .next s)

/-- A latched read performs the read its latches name, and leaves the latches (R101). -/
def Obligations.LatchedReadFollowsTheLatches : Prop :=
  ∀ (s : State) (p : Bool) (rest : List Request), s.pending = .latchedRead p :: rest →
    (s.ioModeLatch = .ram → step s = exec (.rdRam s.addressLatch p) { s with pending := rest }) ∧
    (s.ioModeLatch = .io →
      (s.addressLatch.extractLsb' 0 3 = 0#3 → ∃ x, step s = exec (.rdStatus x p) { s with pending := rest }) ∧
      (s.addressLatch.extractLsb' 0 3 = 1#3 → ∃ x, step s = exec (.rdPa x p) { s with pending := rest }) ∧
      (s.addressLatch.extractLsb' 0 3 = 2#3 → ∃ x, step s = exec (.rdPb x p) { s with pending := rest }) ∧
      (s.addressLatch.extractLsb' 0 3 = 3#3 → ∃ x, step s = exec (.rdPc x p) { s with pending := rest }) ∧
      (s.addressLatch.extractLsb' 0 3 = 4#3 → ∃ x, step s = exec (.rdTmrl x p) { s with pending := rest }) ∧
      (s.addressLatch.extractLsb' 0 3 = 5#3 → ∃ x, step s = exec (.rdTmrh x p) { s with pending := rest }) ∧
      (s.addressLatch.extractLsb' 1 2 = 3#2 → ∃ x l, step s = exec (.rdUnused x l p) { s with pending := rest })) ∧
    (∀ t, step s = .next t → t.ioModeLatch = s.ioModeLatch ∧ t.addressLatch = s.addressLatch)

/-- A latched write performs the write its latches name, and leaves the latches, so a second one reaches the same target
(R102; D20, log 24). -/
def Obligations.LatchedWriteFollowsTheLatches : Prop :=
  ∀ (s : State) (d : Byte) (rest : List Request), s.pending = .latchedWrite d :: rest →
    (s.ioModeLatch = .ram → step s = exec (.wrRam s.addressLatch d) { s with pending := rest }) ∧
    (s.ioModeLatch = .io →
      (s.addressLatch.extractLsb' 0 3 = 0#3 →
        (d.extractLsb' 6 2 = 0b00#2 → ∃ x, step s = exec (.wrCmdNop x d) { s with pending := rest }) ∧
        (d.extractLsb' 6 2 = 0b01#2 → ∃ x, step s = exec (.wrCmdStop x d) { s with pending := rest }) ∧
        (d.extractLsb' 6 2 = 0b10#2 → ∃ x, step s = exec (.wrCmdStoptc x d) { s with pending := rest }) ∧
        (d.extractLsb' 6 2 = 0b11#2 → ∃ x, step s = exec (.wrCmdStart x d) { s with pending := rest })) ∧
      (s.addressLatch.extractLsb' 0 3 = 1#3 → ∃ x, step s = exec (.wrPa x d) { s with pending := rest }) ∧
      (s.addressLatch.extractLsb' 0 3 = 2#3 → ∃ x, step s = exec (.wrPb x d) { s with pending := rest }) ∧
      (s.addressLatch.extractLsb' 0 3 = 3#3 → ∃ x, step s = exec (.wrPc x d) { s with pending := rest }) ∧
      (s.addressLatch.extractLsb' 0 3 = 4#3 → ∃ x, step s = exec (.wrTmrl x d) { s with pending := rest }) ∧
      (s.addressLatch.extractLsb' 0 3 = 5#3 → ∃ x, step s = exec (.wrTmrh x d) { s with pending := rest }) ∧
      (s.addressLatch.extractLsb' 1 2 = 3#2 → ∃ x l, step s = exec (.wrUnused x l d) { s with pending := rest })) ∧
    (∀ t, step s = .next t → t.ioModeLatch = s.ioModeLatch ∧ t.addressLatch = s.addressLatch)

/-- Only ALE writes the two latches; no other operation, RESET included, moves them (R22, R23; D15, D20, log 23, log 24). -/
def Obligations.OnlyAleMovesTheLatches : Prop :=
  ∀ (i : Instr) (s t : State), (∀ m a, i ≠ .ale m a) → exec i s = .next t →
    t.ioModeLatch = s.ioModeLatch ∧ t.addressLatch = s.addressLatch

/-- ALE: its descriptor; it stores the space and the whole address and nothing else; a second ALE overwrites the first
(R100). -/
def Obligations.AleStoresSpaceAndAddress : Prop :=
  ∀ (s : State) (m : Space) (a : Byte),
    decode (0b00#2 ++ bitOfSpace m ++ a ++ 0x00#8) = .ok (.ale m a) ∧
    exec (.ale m a) s = .next { s with ioModeLatch := m, addressLatch := a } ∧
    ∀ (n : Space) (b : Byte) (t : State), exec (.ale m a) s = .next t → exec (.ale n b) t = exec (.ale n b) s

/-- RD_RAM: its descriptor; it returns the byte at any of the 256 addresses and changes nothing; a byte never written
reads its creation value: 0x00, or whatever the power-on contents hold where those are arbitrary (R103). -/
def Obligations.RdRamReturnsTheByte : Prop :=
  (∀ (s : State) (a : Byte) (p : Bool),
    decode (0b01#2 ++ 0b0#1 ++ a ++ 0#7 ++ BitVec.ofBool p) = .ok (.rdRam a p) ∧
    exec (.rdRam a p) s = .next { s with returned := s.returned ++ [s.memRead a] }) ∧
  (∀ a : Byte, State.reset.memRead a = 0x00#8) ∧
  ∀ (m : Memory) (a : Byte), (State.created m).memRead a = m.read a.toNat

/-- WR_RAM: its descriptor; it stores the byte at its address, every other byte reads as before, no other state changes;
and the latched round trip of R104 returns the byte written (R104; RAM in its canonical form, which every step keeps:
`StepKeepsInvariant`). -/
def Obligations.WrRamStoresExactlyOneByte : Prop :=
  (∀ a d : Byte, decode (0b10#2 ++ 0b0#1 ++ a ++ d) = .ok (.wrRam a d)) ∧
  (∀ (s : State) (a d : Byte), s.ram.wf →
    ∃ t, exec (.wrRam a d) s = .next t ∧ t = { s with ram := t.ram } ∧ t.memRead a = d ∧
      ∀ b, b ≠ a → t.memRead b = s.memRead b) ∧
  (∀ (s : State) (a d : Byte), s.ram.wf →
    s.pending = [.word (aleWord .ram a), .latchedWrite d, .word (aleWord .ram a), .latchedRead false] →
    ∃ t : State, core.run 4 s = .next t ∧ t.returned = s.returned ++ [d])

/-- Every operation but WR_RAM leaves every byte of RAM as it was (R59, R103, R104, R233). -/
def Obligations.OnlyWrRamStores : Prop :=
  ∀ (i : Instr) (s t : State), (∀ a d, i ≠ .wrRam a d) → exec i s = .next t →
    ∀ a, t.memRead a = s.memRead a

/-- A peek changes no chip state, samples the pins like a normal read and returns the same byte a normal read would
return at that instant (R106). -/
def Obligations.PeekChangesNoChipState : Prop :=
  ∀ (m : Space) (a : Byte) (s : State),
    ∃ t u, exec (decodeRead m a true) s = .next t ∧ exec (decodeRead m a false) s = .next u ∧ SameChip s t ∧
      t.returned = u.returned ∧ t.inputDraws = u.inputDraws ∧ t.freeDraws = u.freeDraws ∧ t.trace = s.trace ∧
      t.unmodelled = u.unmodelled

/-! ### COMMAND and STATUS (41_command_status.md) -/

/-- A COMMAND write with TM = NOP or STOP AFTER TC stores all eight bits, flushes ports A and B that become outputs, in
that order, marks an unspecified feature, and changes nothing else (R120, R121, R123; D9, D10, D12, D13, log 19 to log 22). -/
def Obligations.CommandNopAndStopAfterTc : Prop :=
  ∀ (s : State) (x : BitVec 5) (d : Byte),
    exec (.wrCmdNop x d) s = .next { s with
      command := d
      trace := s.trace ++ portFlushes s d
      unmodelled := s.unmodelled || usesUnspecified d } ∧
    exec (.wrCmdStoptc x d) s = .next { s with
      command := d
      trace := s.trace ++ portFlushes s d
      unmodelled := s.unmodelled || usesUnspecified d }

/-- A COMMAND write with TM = STOP also disarms both events, snapshots the live count under the kept mode bits and
drives TO high, with an event only if it was low; the flag is kept (R122, R182; D7, D10, log 17, log 20). -/
def Obligations.CommandStopHaltsTheTimer : Prop :=
  ∀ (s : State) (x : BitVec 5) (d : Byte),
    exec (.wrCmdStop x d) s = .next { s with
      command := d
      trace := s.trace ++ portFlushes s d ++ toChange s.toLevel true
      unmodelled := s.unmodelled || usesUnspecified d
      halfEvt := none
      tcEvt := none
      countLoaded := modeOf s.countLoaded ++ s.liveCount
      toLevel := true }

/-- A second STOP with the same byte changes nothing at all and emits nothing (R122, 95_test_vectors.md L1-8; C5). -/
def Obligations.StopIsIdempotent : Prop :=
  ∀ (s t : State) (x y : BitVec 5) (d : Byte), exec (.wrCmdStop x d) s = .next t → exec (.wrCmdStop y d) t = .next t

/-- START on a stopped timer with a length of at least 2 begins a period with the programmed values: the half-period
event is armed with the ceiling of half the length, the odd half begins, TO is high (R124, R181; D10, log 20). -/
def Obligations.CommandStartFromStopped : Prop :=
  ∀ (s : State) (x : BitVec 5) (d : Byte), s.halfEvt = none → 2 ≤ (s.countLength.extractLsb' 0 14).toNat →
    exec (.wrCmdStart x d) s = .next { s with
      command := d
      trace := s.trace ++ portFlushes s d ++ toChange s.toLevel true
      unmodelled := s.unmodelled || usesUnspecified d
      countLoaded := s.countLength
      countEvenPhase := false
      halfEvt := some (((s.countLength.extractLsb' 0 14).toNat + 1) / 2)
      toLevel := true }

/-- START with a length of 0 or 1 leaves the timer stopped: `count_loaded` equals `count_length`, nothing is armed, TO is
high, the flag is not set (R124, R181, R190; D10, log 20). -/
def Obligations.CommandStartWithShortLength : Prop :=
  ∀ (s : State) (x : BitVec 5) (d : Byte), s.halfEvt = none → (s.countLength.extractLsb' 0 14).toNat < 2 →
    exec (.wrCmdStart x d) s = .next { s with
      command := d
      trace := s.trace ++ portFlushes s d ++ toChange s.toLevel true
      unmodelled := s.unmodelled || usesUnspecified d
      countLoaded := s.countLength
      halfEvt := none
      tcEvt := none
      toLevel := true }

/-- START while the timer runs does not restart it: it is a COMMAND write and nothing more (R124, R236; C9, D10, log 20). -/
def Obligations.CommandStartWhileRunning : Prop :=
  ∀ (s : State) (x : BitVec 5) (d : Byte) (h : Nat), s.halfEvt = some h →
    exec (.wrCmdStart x d) s = .next { s with
      command := d
      trace := s.trace ++ portFlushes s d
      unmodelled := s.unmodelled || usesUnspecified d }

/-- RD_STATUS: its descriptor; it returns the register as it stands, then clears bit 6 unless the read is a peek. Bits 7
and 5:0 read 0 in every state that meets the invariant, and a terminal-count event sets the flag again (R125). -/
def Obligations.StatusReadClearsTheFlag : Prop :=
  ∀ (s : State) (x : BitVec 5),
    (∀ p, decode (0b01#2 ++ 0b1#1 ++ x ++ 0b000#3 ++ 0#7 ++ BitVec.ofBool p) = .ok (.rdStatus x p)) ∧
    (s.Inv → ∀ k, k ≠ 6 → s.status.getLsbD k = false) ∧
    s.tcEvent.status.getLsbD 6 = true ∧
    exec (.rdStatus x true) s = .next { s with returned := s.returned ++ [s.status] } ∧
    ∃ t, exec (.rdStatus x false) s = .next t ∧ t = { s with returned := s.returned ++ [s.status], status := t.status } ∧
      t.status.getLsbD 6 = false ∧ ∀ k, k ≠ 6 → t.status.getLsbD k = s.status.getLsbD k

/-- The timer flag is set only by a tick, and cleared only by a non-peek status read and by RESET; no operation changes
another STATUS bit. From a state that meets the invariant a tick sets a clear flag exactly when the terminal-count event
fires in it: the event had one tick left, or the odd half ends in a mode that arms the event and the lead leaves it no
tick (R25, R183, R185, R187, R214; D2, D15, D21, log 9, log 11, log 14, log 15, log 23). -/
def Obligations.TimerFlagChangesOnlyAsSaid : Prop :=
  ∀ (i : Instr) (s t : State), exec i s = .next t →
    (∀ k, k ≠ 6 → t.status.getLsbD k = s.status.getLsbD k) ∧
    (s.status.getLsbD 6 = false → t.status.getLsbD 6 = true → i = .tick) ∧
    (s.Inv → i = .tick → s.status.getLsbD 6 = false →
      (t.status.getLsbD 6 = true ↔
        s.tcEvt = some 1 ∨
        (s.halfEvt = some 1 ∧ s.countEvenPhase = false ∧
          (s.countLoaded.getLsbD 15 = true ∨ s.params.tcFlagAllModes = true) ∧
          (lengthOf s.countLoaded).toNat / 2 ≤ s.params.tcLead))) ∧
    (s.status.getLsbD 6 = true → t.status.getLsbD 6 = false → (∃ x, i = .rdStatus x false) ∨ i = .reset)

/-- A read of I/O index 6 or 7 returns some byte and changes no chip state; a write there changes nothing
(R89, R126, R127; D14, log 7). -/
def Obligations.UnusedIndicesDoNothing : Prop :=
  ∀ (s : State) (x : BitVec 5) (l : Bool),
    (∀ p, ∃ v, exec (.rdUnused x l p) s =
      .next { s with returned := s.returned ++ [v], freeDraws := s.freeDraws + 1 }) ∧
    (∀ d, exec (.wrUnused x l d) s = .next s)

/-! ### Ports (42_ports.md) -/

/-- A read of port A or B returns the latch in output mode, with no call to the pins, and the environment's value in
input mode: the next listed draw, or some byte where none is listed; no chip state changes (R140, R141, R143; D23, log 6). -/
def Obligations.PortAAndBReads : Prop :=
  ∀ (s : State) (x : BitVec 5) (p : Bool),
    (s.command.getLsbD 0 = true → exec (.rdPa x p) s = .next { s with returned := s.returned ++ [s.latchA] }) ∧
    (s.command.getLsbD 1 = true → exec (.rdPb x p) s = .next { s with returned := s.returned ++ [s.latchB] }) ∧
    (s.command.getLsbD 0 = false →
      (∀ v rest, s.inputDraws = v :: rest →
        exec (.rdPa x p) s = .next { s with inputDraws := rest, returned := s.returned ++ [v] }) ∧
      (s.inputDraws = [] → ∃ v,
        exec (.rdPa x p) s = .next { s with freeDraws := s.freeDraws + 1, returned := s.returned ++ [v] })) ∧
    (s.command.getLsbD 1 = false →
      (∀ v rest, s.inputDraws = v :: rest →
        exec (.rdPb x p) s = .next { s with inputDraws := rest, returned := s.returned ++ [v] }) ∧
      (s.inputDraws = [] → ∃ v,
        exec (.rdPb x p) s = .next { s with freeDraws := s.freeDraws + 1, returned := s.returned ++ [v] }))

/-- A read of port C returns bits 7:6 as 1 over six bits: of the pins in input mode, of the latch in output mode, and 0
with the mark set in a strobed mode (R140, R145; C10, D13, D23, log 6, log 22). -/
def Obligations.PortCRead : Prop :=
  ∀ (s : State) (x : BitVec 5) (p : Bool),
    (s.command.extractLsb' 2 2 = 0b11#2 →
      exec (.rdPc x p) s = .next { s with returned := s.returned ++ [s.latchC ||| 0xC0#8] }) ∧
    (s.command.extractLsb' 2 2 = 0b00#2 →
      (∀ v rest, s.inputDraws = v :: rest →
        exec (.rdPc x p) s = .next { s with
          inputDraws := rest
          returned := s.returned ++ [0b11#2 ++ v.extractLsb' 0 6] }) ∧
      (s.inputDraws = [] → ∃ v : BitVec 6,
        exec (.rdPc x p) s = .next { s with
          freeDraws := s.freeDraws + 1
          returned := s.returned ++ [0b11#2 ++ v] })) ∧
    (s.command.extractLsb' 2 2 = 0b01#2 ∨ s.command.extractLsb' 2 2 = 0b10#2 →
      exec (.rdPc x p) s = .next { s with unmodelled := true, returned := s.returned ++ [0xC0#8] })

/-- A write of port A or B updates the latch in any mode and emits the value in output mode only, also when it equals the
old one (R142, R144; D11, log 21). -/
def Obligations.PortAAndBWrites : Prop :=
  ∀ (s : State) (x : BitVec 5) (d : Byte),
    (s.command.getLsbD 0 = true →
      exec (.wrPa x d) s = .next { s with latchA := d, trace := s.trace ++ [.portOut .A d] }) ∧
    (s.command.getLsbD 0 = false → exec (.wrPa x d) s = .next { s with latchA := d }) ∧
    (s.command.getLsbD 1 = true →
      exec (.wrPb x d) s = .next { s with latchB := d, trace := s.trace ++ [.portOut .B d] }) ∧
    (s.command.getLsbD 1 = false → exec (.wrPb x d) s = .next { s with latchB := d })

/-- A write of port C latches six bits in any mode and emits them in output mode only (R146; D11, log 21). -/
def Obligations.PortCWrite : Prop :=
  ∀ (s : State) (x : BitVec 5) (d : Byte),
    (s.command.extractLsb' 2 2 = 0b11#2 →
      exec (.wrPc x d) s = .next { s with
        latchC := 0b00#2 ++ d.extractLsb' 0 6
        trace := s.trace ++ [.portOut .C (0b00#2 ++ d.extractLsb' 0 6)] }) ∧
    (s.command.extractLsb' 2 2 ≠ 0b11#2 →
      exec (.wrPc x d) s = .next { s with latchC := 0b00#2 ++ d.extractLsb' 0 6 })

/-- The pins after a COMMAND write of any of the four rows: a port A or B in output mode drives its last-written value,
one in input mode drives nothing, and port C likewise. Turning port C to output emits no event. The TO pin keeps its level
but for STOP and a START from Stopped, which drive it high (R36, R37, R120, R121 to R124, R242; D12, log 21; that an input
port drives nothing is general knowledge, log 26). -/
def Obligations.PinsFollowLatchAndMode : Prop :=
  ∀ (i : Instr) (s t : State) (x : BitVec 5) (d : Byte),
    i = .wrCmdNop x d ∨ i = .wrCmdStop x d ∨ i = .wrCmdStoptc x d ∨ i = .wrCmdStart x d → exec i s = .next t →
    t.pinsA = (if d.getLsbD 0 then .driven s.latchA else .released) ∧
    t.pinsB = (if d.getLsbD 1 then .driven s.latchB else .released) ∧
    (d.extractLsb' 2 2 = 0b11#2 → t.pinsC = .driven (s.latchC.extractLsb' 0 6)) ∧
    (d.extractLsb' 2 2 = 0b00#2 → t.pinsC = .released) ∧
    (∃ es, t.trace = s.trace ++ es ∧ ∀ v, .portOut .C v ∉ es) ∧
    (i = .wrCmdNop x d ∨ i = .wrCmdStoptc x d → t.pinTO = s.toLevel) ∧
    (i = .wrCmdStop x d → t.pinTO = true) ∧
    (i = .wrCmdStart x d → t.pinTO = (if s.halfEvt = none then true else s.toLevel))

/-! ### Count registers (43_timer_registers.md) -/

/-- RD_TMRL returns bits 7:0 of the live count, RD_TMRH its bits 13:8 under the running period's mode bits; neither
changes anything (R161, R162; D8, log 18). -/
def Obligations.CountReads : Prop :=
  ∀ (s : State) (x : BitVec 5) (p : Bool),
    exec (.rdTmrl x p) s = .next { s with returned := s.returned ++ [s.liveCount.extractLsb' 0 8] } ∧
    exec (.rdTmrh x p) s = .next { s with
      returned := s.returned ++ [s.countLoaded.extractLsb' 14 2 ++ s.liveCount.extractLsb' 8 6] }

/-- What a host reads as the count: stopped, the length or snapshot in `count_loaded`; running, the smaller of the length
and twice the ticks left with the parity bit, which at the default is 1 in the odd half and 0 in the even
(R160; C1, D1, D5, D6, log 10, log 14, log 16). -/
def Obligations.LiveCountValue : Prop :=
  ∀ s : State,
    (s.halfEvt = none → s.liveCount = s.countLoaded.extractLsb' 0 14) ∧
    (∀ h, s.halfEvt = some h → s.countEvenPhase = true →
      s.liveCount.toNat = min (h <<< 1) (s.countLoaded.extractLsb' 0 14).toNat) ∧
    (∀ h, s.halfEvt = some h → s.countEvenPhase = false → s.params.oddHalfBit = true →
      s.liveCount.toNat = min ((h <<< 1) ||| 1) (s.countLoaded.extractLsb' 0 14).toNat) ∧
    (∀ h, s.halfEvt = some h → s.countEvenPhase = false → s.params.oddHalfBit = false →
      s.liveCount.toNat = min (h <<< 1) (s.countLoaded.extractLsb' 0 14).toNat)

/-- In every state that meets the invariant a running timer reads a count of at least 2 and at most its length
(R160, R189; D1, D6, log 14, log 16). -/
def Obligations.RunningCountIsBounded : Prop :=
  ∀ (s : State) (h : Nat), s.Inv → s.halfEvt = some h →
    2 ≤ s.liveCount.toNat ∧ s.liveCount.toNat ≤ (s.countLoaded.extractLsb' 0 14).toNat

/-- WR_TMRL and WR_TMRH: their descriptors; each replaces its byte of `count_length`, keeps the other, and changes nothing
else: the running period and the live count stand as they were, and the value is used at the next reload (R163, R164). -/
def Obligations.CountWritesTouchOnlyTheProgrammedLength : Prop :=
  ∀ (s : State) (x : BitVec 5) (d : Byte),
    decode (0b10#2 ++ 0b1#1 ++ x ++ 0b100#3 ++ d) = .ok (.wrTmrl x d) ∧
    decode (0b10#2 ++ 0b1#1 ++ x ++ 0b101#3 ++ d) = .ok (.wrTmrh x d) ∧
    (∃ t, exec (.wrTmrl x d) s = .next t ∧ t = { s with countLength := t.countLength } ∧
      t.countLength.extractLsb' 0 8 = d ∧ t.countLength.extractLsb' 8 8 = s.countLength.extractLsb' 8 8 ∧
      t.liveCount = s.liveCount ∧ (s.halfEvt = none → t.timerReload.countLoaded = t.countLength)) ∧
    (∃ t, exec (.wrTmrh x d) s = .next t ∧ t = { s with countLength := t.countLength } ∧
      t.countLength.extractLsb' 8 8 = d ∧ t.countLength.extractLsb' 0 8 = s.countLength.extractLsb' 0 8 ∧
      t.liveCount = s.liveCount ∧ (s.halfEvt = none → t.timerReload.countLoaded = t.countLength))

/-! ### The timer engine (44_timer_engine.md) -/

/-- Driving TO to the level it has does nothing; driving it to the other level sets it and emits one event (R180). -/
def Obligations.DrivingToEmitsOnlyChanges : Prop :=
  ∀ (s : State) (l : Bool),
    (s.toLevel = l → s.setTO l = s) ∧
    (s.toLevel ≠ l → s.setTO l = { s with toLevel := l, trace := s.trace ++ [.toPin l] })

/-- On a stopped timer a tick changes nothing (R186). -/
def Obligations.TickOnStoppedTimer : Prop :=
  ∀ s : State, s.halfEvt = none → s.tcEvt = none → exec .tick s = .next s

/-- A tick that makes no counter 0 only counts (R186; D1, log 14). -/
def Obligations.TickBetweenEvents : Prop :=
  ∀ (s : State) (h : Nat), s.halfEvt = some (h + 2) →
    (s.tcEvt = none → exec .tick s = .next { s with halfEvt := some (h + 1) }) ∧
    (∀ n, s.tcEvt = some (n + 2) → exec .tick s = .next { s with halfEvt := some (h + 1), tcEvt := some (n + 1) })

/-- The end of the odd half, in each mode and at every setting of the parameters: the even half is armed with the floor of
half the length; a square-wave mode drives TO low. A TC_PULSE mode leaves TO and arms the terminal-count event
`P_TC_LEAD` ticks before the end of the even half, and so does a square-wave mode under `P_TC_FLAG_ALL_MODES`; where the
lead leaves it no tick (at the default, length 2 or 3), it fires in the same tick (R183, R185, R187; D2, D4, D21, log 9,
log 11, log 15). -/
def Obligations.TickEndsTheOddHalf : Prop :=
  ∀ (s : State), s.halfEvt = some 1 → s.tcEvt = none → s.countEvenPhase = false →
    2 ≤ (lengthOf s.countLoaded).toNat →
    (s.countLoaded.getLsbD 15 = false → s.params.tcFlagAllModes = false →
      exec .tick s = .next { s with
        halfEvt := some ((lengthOf s.countLoaded).toNat / 2)
        countEvenPhase := true
        toLevel := false
        trace := s.trace ++ toChange s.toLevel false }) ∧
    (s.countLoaded.getLsbD 15 = false → s.params.tcFlagAllModes = true →
      s.params.tcLead < (lengthOf s.countLoaded).toNat / 2 →
      exec .tick s = .next { s with
        halfEvt := some ((lengthOf s.countLoaded).toNat / 2)
        countEvenPhase := true
        tcEvt := some ((lengthOf s.countLoaded).toNat / 2 - s.params.tcLead)
        toLevel := false
        trace := s.trace ++ toChange s.toLevel false }) ∧
    (s.countLoaded.getLsbD 15 = true → s.params.tcLead < (lengthOf s.countLoaded).toNat / 2 →
      exec .tick s = .next { s with
        halfEvt := some ((lengthOf s.countLoaded).toNat / 2)
        countEvenPhase := true
        tcEvt := some ((lengthOf s.countLoaded).toNat / 2 - s.params.tcLead) }) ∧
    (s.countLoaded.getLsbD 15 = true ∨ s.params.tcFlagAllModes = true →
      (lengthOf s.countLoaded).toNat / 2 ≤ s.params.tcLead →
      exec .tick s = .next { s with
        halfEvt := some ((lengthOf s.countLoaded).toNat / 2)
        countEvenPhase := true
        toLevel := false
        status := s.status ||| 0x40#8
        trace := s.trace ++ toChange s.toLevel false })

/-- The terminal-count event: it sets the flag in any mode and drives TO low in a TC_PULSE mode (R185, R186; D1, D4,
log 14, log 15). -/
def Obligations.TickFiresTerminalCount : Prop :=
  ∀ (s : State) (h : Nat), s.halfEvt = some (h + 2) → s.tcEvt = some 1 →
    (s.countLoaded.getLsbD 15 = true →
      exec .tick s = .next { s with
        halfEvt := some (h + 1)
        tcEvt := none
        toLevel := false
        status := s.status ||| 0x40#8
        trace := s.trace ++ toChange s.toLevel false }) ∧
    (s.countLoaded.getLsbD 15 = false →
      exec .tick s = .next { s with halfEvt := some (h + 1), tcEvt := none, status := s.status ||| 0x40#8 })

/-- Terminal count with no reload due (the ending period's mode lacks AUTO_RELOAD, or COMMAND holds STOP AFTER TC): TO goes
high and the timer stops, its count reading the length (R184; D4, D8, D9, log 15, log 18, log 19). -/
def Obligations.TickEndsThePeriodAndStops : Prop :=
  ∀ (s : State), s.halfEvt = some 1 → s.tcEvt = none → s.countEvenPhase = true →
    s.countLoaded.getLsbD 14 = false ∨ s.command.extractLsb' 6 2 = 0b10#2 →
    exec .tick s = .next { s with
      halfEvt := none
      countEvenPhase := false
      toLevel := true
      trace := s.trace ++ toChange s.toLevel true }

/-- Terminal count with a reload due: the next period begins with the length and mode then programmed; a programmed length
below 2 stops the timer instead (R184, R181, R190, R243; D4, D8, D9, log 15, log 18, log 19). -/
def Obligations.TickEndsThePeriodAndReloads : Prop :=
  ∀ (s : State), s.halfEvt = some 1 → s.tcEvt = none → s.countEvenPhase = true →
    s.countLoaded.getLsbD 14 = true → s.command.extractLsb' 6 2 ≠ 0b10#2 →
    (2 ≤ (lengthOf s.countLength).toNat →
      exec .tick s = .next { s with
        countLoaded := s.countLength
        halfEvt := some (((lengthOf s.countLength).toNat + 1) / 2)
        countEvenPhase := false
        toLevel := true
        trace := s.trace ++ toChange s.toLevel true }) ∧
    ((lengthOf s.countLength).toNat < 2 →
      exec .tick s = .next { s with
        countLoaded := s.countLength
        halfEvt := none
        countEvenPhase := false
        toLevel := true
        trace := s.trace ++ toChange s.toLevel true })

/-- Two events due in one tick, in every mode and with TO at either level: the terminal-count event fires before the
half-period event, so the flag is set and a TC_PULSE mode drives TO low and then high; then the period ends as it would
alone, in a stop (no AUTO_RELOAD, or STOP AFTER TC held) or a reload with the programmed values, which a length below 2
turns into a stop (R184, R187, R215; D22, D4, D8, D9, log 25, log 15, log 18, log 19). -/
def Obligations.TerminalCountFiresFirst : Prop :=
  ∀ (s : State) (es : List Event), s.halfEvt = some 1 → s.tcEvt = some 1 → s.countEvenPhase = true →
    es = (if s.countLoaded.getLsbD 15 = true then toChange s.toLevel false ++ [.toPin true] else toChange s.toLevel true) →
    (s.countLoaded.getLsbD 14 = false ∨ s.command.extractLsb' 6 2 = 0b10#2 →
      exec .tick s = .next { s with
        halfEvt := none
        tcEvt := none
        countEvenPhase := false
        toLevel := true
        status := s.status ||| 0x40#8
        trace := s.trace ++ es }) ∧
    (s.countLoaded.getLsbD 14 = true → s.command.extractLsb' 6 2 ≠ 0b10#2 →
      (2 ≤ (lengthOf s.countLength).toNat →
        exec .tick s = .next { s with
          countLoaded := s.countLength
          halfEvt := some (((lengthOf s.countLength).toNat + 1) / 2)
          tcEvt := none
          countEvenPhase := false
          toLevel := true
          status := s.status ||| 0x40#8
          trace := s.trace ++ es }) ∧
      ((lengthOf s.countLength).toNat < 2 →
        exec .tick s = .next { s with
          countLoaded := s.countLength
          halfEvt := none
          tcEvt := none
          countEvenPhase := false
          toLevel := true
          status := s.status ||| 0x40#8
          trace := s.trace ++ es }))

/-- After a tick no event is due, from any state whatever (R33, R187; log 27). -/
def Obligations.TickLeavesNothingDue : Prop :=
  ∀ s : State, ∃ t, exec .tick s = .next t ∧ t.halfEvt ≠ some 0 ∧ t.tcEvt ≠ some 0

/-- The waveform of one period (R188, R245, R217; at the default parameters D2 and D21; D1, D4, log 9, log 11, log 14,
log 15). A START from Stopped with length L ≥ 2 begins it; after k ticks, 0 < k < L, the timer runs, TO is high before
tick half_up(L) in a square-wave mode and before tick L - 1 in a TC_PULSE mode and low from then on, and the flag is set
from tick L - 1 on in TC_PULSE modes and as it was in the others; after L ticks TO is high and the timer has reloaded
with the programmed values (AUTO_RELOAD) or stopped. -/
def Obligations.OnePeriodWaveform : Prop :=
  ∀ (s t : State) (x : BitVec 5) (d : Byte) (L : Nat),
    s.params = Config.Params.standard → s.halfEvt = none → s.tcEvt = none →
    L = (lengthOf s.countLength).toNat → 2 ≤ L → d.extractLsb' 6 2 = 0b11#2 →
    exec (.wrCmdStart x d) s = .next t →
    (∀ k, k < L →
      (t.clockTicks k).halfEvt ≠ none ∧
      (t.clockTicks k).toLevel =
        (if s.countLength.getLsbD 15 = true then decide (k < L - 1) else decide (k < (L + 1) / 2)) ∧
      (t.clockTicks k).status =
        (if s.countLength.getLsbD 15 = true ∧ L - 1 ≤ k then s.status ||| 0x40#8 else s.status)) ∧
    (t.clockTicks L).toLevel = true ∧
    (t.clockTicks L).countLoaded = s.countLength ∧
    (t.clockTicks L).tcEvt = none ∧
    (s.countLength.getLsbD 14 = false → (t.clockTicks L).halfEvt = none) ∧
    (s.countLength.getLsbD 14 = true → (t.clockTicks L).halfEvt = some ((L + 1) / 2) ∧
      (t.clockTicks L).countEvenPhase = false)

/-- The auto-reload modes repeat: left alone for n periods of L ticks, the timer is back in the state right after START,
with n low pulses in the trace, and in the TC_PULSE mode with the flag set (R188, 95_test_vectors.md L1-4; default
parameters D2 and D21; D1, D4, D8, D9, log 9, log 11, log 14, log 15, log 18, log 19). -/
def Obligations.AutoReloadRepeatsForever : Prop :=
  ∀ (s t : State) (x : BitVec 5) (d : Byte) (L n : Nat),
    s.params = Config.Params.standard → s.halfEvt = none → s.tcEvt = none →
    L = (lengthOf s.countLength).toNat → 2 ≤ L → s.countLength.getLsbD 14 = true → d.extractLsb' 6 2 = 0b11#2 →
    exec (.wrCmdStart x d) s = .next t →
    t.clockTicks ((n + 1) * L) = { t with
      trace := t.trace ++ (List.replicate (n + 1) [Event.toPin false, Event.toPin true]).flatten
      status := if s.countLength.getLsbD 15 = true then t.status ||| 0x40#8 else t.status }

/-! ### Reset and creation (70_reset_and_hazards.md) -/

/-- The creation state: every field is zero, RAM reads zero everywhere (or is whatever the arbitrary power-on contents
are), the timer is stopped and TO is 0 (R230). -/
def Obligations.CreationStateIsZero : Prop :=
  (∀ a, State.reset.memRead a = 0x00#8) ∧ State.reset.ioModeLatch = .ram ∧ State.reset.addressLatch = 0x00#8 ∧
  State.reset.command = 0x00#8 ∧ State.reset.status = 0x00#8 ∧ State.reset.latchA = 0x00#8 ∧
  State.reset.latchB = 0x00#8 ∧ State.reset.latchC = 0x00#8 ∧ State.reset.countLength = 0x0000#16 ∧
  State.reset.countLoaded = 0x0000#16 ∧ State.reset.countEvenPhase = false ∧ State.reset.toLevel = false ∧
  State.reset.halfEvt = none ∧ State.reset.tcEvt = none ∧ State.reset.unmodelled = false ∧
  State.reset.timerState = .stopped ∧ State.reset.pinTO = false ∧
  ∀ m : Memory, State.created m = { State.reset with ram := m }

/-- RESET from the creation state leaves every field at its creation value but TO, which goes to 1 with one event
(R231, its example; D15, log 1, log 23). -/
def Obligations.ResetFromCreation : Prop :=
  exec .reset State.reset = .next { State.reset with toLevel := true, trace := [.toPin true] }

/-- The state after RESET, from every state that meets the invariant (R231, R232; D15, D7, log 17, log 23): `count_loaded`
holds the mode and live count if the timer ran, `count_length` if it was stopped and TM was START, and is unchanged
otherwise; `count_even_phase` is left open. -/
def Obligations.StateAfterReset : Prop :=
  ∀ s : State, s.Inv → ∃ t, exec .reset s = .next t ∧
    t = { s with
      command := s.command &&& 0xF0#8
      status := 0x00#8
      latchA := 0x00#8
      latchB := 0x00#8
      latchC := 0x00#8
      countLoaded := t.countLoaded
      countEvenPhase := t.countEvenPhase
      toLevel := true
      halfEvt := none
      tcEvt := none
      trace := s.trace ++ toChange s.toLevel true } ∧
    (s.halfEvt ≠ none → t.countLoaded = modeOf s.countLoaded ++ s.liveCount) ∧
    (s.halfEvt = none → s.command.extractLsb' 6 2 = 0b11#2 → t.countLoaded = s.countLength) ∧
    (s.halfEvt = none → s.command.extractLsb' 6 2 ≠ 0b11#2 → t.countLoaded = s.countLoaded)

/-- RESET does not change RAM (R233). -/
def Obligations.ResetKeepsRam : Prop :=
  ∀ s : State, ∃ t, exec .reset s = .next t ∧ t.ram = s.ram ∧ ∀ a, t.memRead a = s.memRead a

/-! ### The whole machine -/

/-- Every operation is total: it gives a next state from every state, and there is no fault at all. The two conditions the source calls error-like have
their defined results: a port C read in a strobed mode returns 0xC0, and a START with a length below 2 stops the timer
(R210). -/
def Obligations.EveryOperationIsTotal : Prop :=
  (∀ (i : Instr) (s : State), ∃ t, exec i s = .next t) ∧ (∀ _ : Fault, False) ∧
  (∀ (s : State) (x : BitVec 5) (p : Bool), s.command.extractLsb' 2 2 = 0b01#2 ∨ s.command.extractLsb' 2 2 = 0b10#2 →
    ∃ t, exec (.rdPc x p) s = .next t ∧ t.returned = s.returned ++ [0xC0#8]) ∧
  (∀ (s : State) (x : BitVec 5) (d : Byte), s.halfEvt = none → (lengthOf s.countLength).toNat < 2 →
    ∃ t, exec (.wrCmdStart x d) s = .next t ∧ t.halfEvt = none ∧ t.tcEvt = none ∧ t.toLevel = true)

/-- The invariant of the reachable states holds in the creation state (R43, R33). -/
def Obligations.CreationMeetsTheInvariant : Prop := State.reset.Inv

/-- Every step keeps the invariant, from every state that meets it (R43 (a), (b), (d), (e), R33; log 13, log 22). -/
def Obligations.StepKeepsInvariant : Prop :=
  ∀ s t : State, s.Inv → step s = .next t → t.Inv

/-- TO is 1 whenever the timer is stopped: every step from a state that meets the invariant keeps it, and RESET, STOP and
START establish it from any state (R43 (c), R182, R181). -/
def Obligations.StoppedTimerHoldsToHigh : Prop :=
  (∀ s t : State, s.Inv → s.HighWhenStopped → step s = .next t → t.HighWhenStopped) ∧
  (∀ s t : State, exec .reset s = .next t → t.HighWhenStopped) ∧
  (∀ (s t : State) (x : BitVec 5) (d : Byte), exec (.wrCmdStop x d) s = .next t → t.HighWhenStopped) ∧
  (∀ (s t : State) (x : BitVec 5) (d : Byte), exec (.wrCmdStart x d) s = .next t → t.HighWhenStopped)

/-- The trace only grows, and the TO events an operation adds are exactly the level changes: each differs from the level
before it, and the last one leaves the level the state holds (R39, R180, R30). -/
def Obligations.TraceRecordsEveryToChange : Prop :=
  ∀ (i : Instr) (s t : State), exec i s = .next t →
    ∃ es, t.trace = s.trace ++ es ∧ replayTO s.toLevel es = some t.toLevel

/-- Which operations write which register, and no other does (R24, R26, R27, R59, R163, R164, R182; D15, log 23): COMMAND
by a COMMAND write and RESET, an output latch by its port write and RESET, `count_length` by the count writes, the timer's
fields by TICK, RESET, STOP and START. -/
def Obligations.RegisterFrames : Prop :=
  ∀ (i : Instr) (s t : State), exec i s = .next t →
    (t.command ≠ s.command → i = .reset ∨ ∃ x d, i = .wrCmdNop x d ∨ i = .wrCmdStop x d ∨ i = .wrCmdStoptc x d ∨
      i = .wrCmdStart x d) ∧
    (t.latchA ≠ s.latchA → i = .reset ∨ ∃ x d, i = .wrPa x d) ∧
    (t.latchB ≠ s.latchB → i = .reset ∨ ∃ x d, i = .wrPb x d) ∧
    (t.latchC ≠ s.latchC → i = .reset ∨ ∃ x d, i = .wrPc x d) ∧
    (t.countLength ≠ s.countLength → ∃ x d, i = .wrTmrl x d ∨ i = .wrTmrh x d) ∧
    (¬ SameTimer s t → i = .tick ∨ i = .reset ∨ ∃ x d, i = .wrCmdStop x d ∨ i = .wrCmdStart x d)

/-- The mark is never cleared, and is set only by a COMMAND write that selects a strobed mode or an interrupt enable, by a
port C read in a strobed mode, and by a RESET that rewrites a kept interrupt enable (R34, R120, R145, R231; D13, log 22). -/
def Obligations.MarkIsStickyAndSetOnlyAsSaid : Prop :=
  ∀ (i : Instr) (s t : State), exec i s = .next t →
    (s.unmodelled = true → t.unmodelled = true) ∧
    (s.unmodelled = false → t.unmodelled = true →
      (∃ x d, (d.extractLsb' 2 2 = 0b01#2 ∨ d.extractLsb' 2 2 = 0b10#2 ∨ d.getLsbD 4 = true ∨ d.getLsbD 5 = true) ∧
        (i = .wrCmdNop x d ∨ i = .wrCmdStop x d ∨ i = .wrCmdStoptc x d ∨ i = .wrCmdStart x d)) ∨
      (∃ x p, i = .rdPc x p ∧ (s.command.extractLsb' 2 2 = 0b01#2 ∨ s.command.extractLsb' 2 2 = 0b10#2)) ∨
      (i = .reset ∧ (s.command.getLsbD 4 = true ∨ s.command.getLsbD 5 = true)))

/-- No operation changes a parameter or the chip's name, and the variant changes nothing: an operation on an 8156 gives what it gives on an
8155, but for the variant itself (R2, R44; D26, log 8, log 12; the name is the model's own, log 32). -/
def Obligations.ParametersFixedAndVariantsAlike : Prop :=
  ∀ (i : Instr) (s t : State), exec i s = .next t →
    t.params = s.params ∧ t.chip = s.chip ∧
    ∀ v : Config.Variant, exec i { s with params := { s.params with variant := v } } =
      .next { t with params := { s.params with variant := v } }

/-- A step of one chip leaves every other chip of a system as it was, and does to that chip what its own step does
(R219). -/
def Obligations.ChipsAreIndependent : Prop :=
  ∀ (sys sys' : System) (n : Nat), sys.stepChip n = .next sys' →
    (∀ k, k ≠ n → sys'[k]? = sys[k]?) ∧
    ∀ s, sys[n]? = some s → ∃ t, step s = .next t ∧ sys'[n]? = some t
end

