-- ==== Sys2Proof/Laws/Decode.lean ====
section
/-! SUPPORT. The fields of the words the encoder makes, the word its fields make, and what decoding each kind of word gives
(spec/30_encoding.md R70 to R75, R92). -/

namespace Sys2Proof

@[simp] theorem spaceOfBit_bitOfSpace (m : Space) : spaceOfBit ((bitOfSpace m).getLsbD 0) = m := by
  cases m <;> rfl

/-- A word laid out as R70 says: kind, space, address, data. -/
def descriptorOf (k : BitVec 2) (m : Space) (a d : Byte) : Descriptor := k ++ bitOfSpace m ++ a ++ d

theorem descriptorOf_bit (k : BitVec 2) (m : Space) (a d : Byte) (i : Nat) :
    (descriptorOf k m a d).getLsbD i =
      if i < 8 then d.getLsbD i else if i < 16 then a.getLsbD (i - 8)
      else if i < 17 then (bitOfSpace m).getLsbD (i - 16) else k.getLsbD (i - 17) := by
  unfold descriptorOf
  simp only [BitVec.getLsbD_append]
  by_cases h0 : i < 8
  · simp [h0]
  · by_cases h1 : i < 16
    · simp [h0, h1, show i - 8 < 8 by omega]
    · by_cases h2 : i < 17
      · simp only [h0, h1, h2, show ¬ (i - 8 < 8) by omega, show i - 16 < 1 by omega, if_true, if_false,
          show i - 8 - 8 = i - 16 by omega]
      · simp only [h0, h1, h2, show ¬ (i - 8 < 8) by omega, show ¬ (i - 8 - 8 < 1) by omega, if_false,
          show i - 8 - 8 - 1 = i - 17 by omega]

@[simp] theorem kindField_descriptorOf (k : BitVec 2) (m : Space) (a d : Byte) :
    kindField (descriptorOf k m a d) = k := by
  refine BitVec.eq_of_getLsbD_eq fun i hi => ?_
  simp [kindField, descriptorOf_bit, hi, show ¬ (17 + i < 8) by omega, show ¬ (17 + i < 16) by omega]

@[simp] theorem spaceField_descriptorOf (k : BitVec 2) (m : Space) (a d : Byte) :
    spaceField (descriptorOf k m a d) = m := by
  rw [spaceField, descriptorOf_bit]
  exact spaceOfBit_bitOfSpace m

@[simp] theorem addrField_descriptorOf (k : BitVec 2) (m : Space) (a d : Byte) :
    addrField (descriptorOf k m a d) = a := by
  refine BitVec.eq_of_getLsbD_eq fun i hi => ?_
  simp [addrField, descriptorOf_bit, hi, show 8 + i < 16 by omega]

@[simp] theorem dataField_descriptorOf (k : BitVec 2) (m : Space) (a d : Byte) :
    dataField (descriptorOf k m a d) = d := by
  refine BitVec.eq_of_getLsbD_eq fun i hi => ?_
  simp [dataField, descriptorOf_bit, hi]

/-- Every word is laid out from its own fields. -/
theorem descriptorOf_fields (w : Descriptor) :
    descriptorOf (kindField w) (spaceField w) (addrField w) (dataField w) = w := by
  refine BitVec.eq_of_getLsbD_eq fun i hi => ?_
  rw [descriptorOf_bit]
  split
  · simp [dataField, *]
  · split
    · simp [addrField, show i - 8 < 8 by omega, show 8 + (i - 8) = i by omega]
    · split
      · obtain rfl : i = 16 := by omega
        unfold spaceField
        cases w.getLsbD 16 <;> rfl
      · simp [kindField, show i - 17 < 2 by omega, show 17 + (i - 17) = i by omega]

theorem aleWord_eq (m : Space) (a : Byte) : aleWord m a = descriptorOf 0b00#2 m a 0#8 := rfl

theorem writeWord_eq (m : Space) (a d : Byte) : writeWord m a d = descriptorOf 0b10#2 m a d := rfl

theorem hostWord_eq (d : Byte) : hostWord d = descriptorOf 0b11#2 .ram 0#8 d := rfl

theorem readWord_eq (m : Space) (a : Byte) (p : Bool) :
    readWord m a p = descriptorOf 0b01#2 m a (0#7 ++ BitVec.ofBool p) := by
  refine BitVec.eq_of_getLsbD_eq fun i hi => ?_
  rw [descriptorOf_bit]
  unfold readWord
  simp only [BitVec.getLsbD_append]
  by_cases h0 : i < 1
  · simp [h0, show i < 8 by omega]
  · by_cases h1 : i < 8
    · simp [h0, h1, show i - 1 < 7 by omega]
    · simp only [h0, h1, show ¬ (i - 1 < 7) by omega, if_false, show i - 1 - 7 = i - 8 by omega]
      by_cases h2 : i < 16
      · simp [h2, show i - 8 < 8 by omega]
      · simp only [h2, show ¬ (i - 8 < 8) by omega, if_false, show i - 8 - 8 = i - 16 by omega]
        by_cases h3 : i < 17
        · simp [h3, show i - 16 < 1 by omega]
        · simp [h3, show ¬ (i - 16 < 1) by omega, show i - 16 - 1 = i - 17 by omega]

/-- An ALE word decodes (R72). -/
theorem decode_aleWord (m : Space) (a : Byte) : decode (aleWord m a) = .ok (.ale m a) := by
  simp [aleWord_eq, decode]

/-- An RD word decodes to the read its space and address select (R73). -/
theorem decode_readWord (m : Space) (a : Byte) (p : Bool) : decode (readWord m a p) = .ok (decodeRead m a p) := by
  cases p <;> simp [readWord_eq, decode]

/-- A WR word decodes to the write its space and address select (R74). -/
theorem decode_writeWord (m : Space) (a d : Byte) : decode (writeWord m a d) = .ok (decodeWrite m a d) := by
  simp [writeWord_eq, decode]

/-- An I/O address is its ignored bits and its index. -/
theorem ignoredBits_append_ioIndex (a : Byte) : ignoredBits a ++ ioIndex a = a := by
  refine BitVec.eq_of_getLsbD_eq fun i hi => ?_
  rw [BitVec.getLsbD_append]
  split
  · simp [ioIndex, *]
  · simp [ignoredBits, show i - 3 < 5 by omega, show 3 + (i - 3) = i by omega]

@[simp] theorem ignoredBits_append (x : BitVec 5) (n : BitVec 3) : ignoredBits (x ++ n) = x := by
  refine BitVec.eq_of_getLsbD_eq fun i hi => ?_
  rw [ignoredBits, BitVec.getLsbD_extractLsb', BitVec.getLsbD_append]
  simp [hi]

@[simp] theorem ioIndex_append (x : BitVec 5) (n : BitVec 3) : ioIndex (x ++ n) = n := by
  refine BitVec.eq_of_getLsbD_eq fun i hi => ?_
  rw [ioIndex, BitVec.getLsbD_extractLsb', BitVec.getLsbD_append]
  simp [hi]

end Sys2Proof
end

