-- ==== Sys2Proof/Laws/Memory.lean ====
section
/-! SUPPORT. RAM as a canonical list: a write is read back, leaves every other byte alone and keeps the form, and canonical
RAMs with equal bytes are equal. -/

namespace Sys2Proof.Machine

@[simp] theorem Memory.read_nil (a : Nat) : Memory.read [] a = Memory.blank := rfl

@[simp] theorem Memory.read_cons (k : Nat) (v : Byte) (m : Memory) (a : Nat) :
    Memory.read ((k, v) :: m) a = if k = a then v else Memory.read m a := rfl

/-- The empty RAM is canonical. -/
theorem Memory.wf_nil : Memory.wf [] := by simp [Memory.wf]

theorem Memory.wf_tail {c : Host.Cell} {m : Memory} (h : Memory.wf (c :: m)) : Memory.wf m :=
  ⟨(List.pairwise_cons.mp h.1).2, fun d hd => h.2 d (List.mem_cons_of_mem _ hd)⟩

/-- An address below all listed ones reads blank. -/
theorem Memory.read_of_below {m : Memory} {a : Nat} (h : ∀ c ∈ m, a < c.1) : m.read a = Memory.blank := by
  induction m with
  | nil => rfl
  | cons c m ih =>
    have hc : a < c.1 := h c (by simp)
    rw [show c = (c.1, c.2) from rfl, Memory.read_cons, if_neg (by omega)]
    exact ih fun d hd => h d (List.mem_cons_of_mem _ hd)

theorem Memory.below_of_wf {c : Host.Cell} {m : Memory} (h : Memory.wf (c :: m)) : ∀ d ∈ m, c.1 < d.1 :=
  (List.pairwise_cons.mp h.1).1

theorem Memory.read_consCell {m : Memory} {a : Nat} (v : Byte) (h : ∀ c ∈ m, a < c.1) (b : Nat) :
    (Memory.consCell a v m).read b = if a = b then v else m.read b := by
  unfold Memory.consCell
  split <;> rename_i hv
  · split <;> rename_i hab
    · subst hab; rw [hv, Memory.read_of_below h]
    · rfl
  · simp

/-- Reading after writing: the byte written, or the byte that was there. -/
theorem Memory.read_write {m : Memory} (h : m.wf) (a : Nat) (v : Byte) (b : Nat) :
    (m.write a v).read b = if a = b then v else m.read b := by
  induction m with
  | nil => exact Memory.read_consCell v (by simp) b
  | cons c m ih =>
    obtain ⟨k, w⟩ := c
    have hb := Memory.below_of_wf h
    simp only at hb
    unfold Memory.write
    split <;> rename_i hk
    · exact Memory.read_consCell v (by
        intro d hd
        rcases List.mem_cons.mp hd with rfl | hd
        · exact hk
        · exact lt_trans hk (hb d hd)) b
    · split <;> rename_i hk'
      · subst hk'
        rw [Memory.read_consCell v hb b, Memory.read_cons]
        split <;> rfl
      · rw [Memory.read_cons, Memory.read_cons, ih (Memory.wf_tail h)]
        split <;> rename_i h1
        · rw [if_neg (by omega)]
        · rfl

theorem Memory.wf_consCell {m : Memory} {a : Nat} (v : Byte) (hm : m.wf) (ha : a < 256) (h : ∀ c ∈ m, a < c.1) :
    (Memory.consCell a v m).wf := by
  unfold Memory.consCell
  split <;> rename_i hv
  · exact hm
  · refine ⟨List.pairwise_cons.mpr ⟨h, hm.1⟩, ?_⟩
    intro c hc
    rcases List.mem_cons.mp hc with rfl | hc
    · exact ⟨ha, hv⟩
    · exact hm.2 c hc

theorem Memory.mem_consCell {m : Memory} {a : Nat} {v : Byte} {c : Host.Cell} (h : c ∈ Memory.consCell a v m) :
    c = (a, v) ∨ c ∈ m := by
  unfold Memory.consCell at h
  split at h
  · exact .inr h
  · exact List.mem_cons.mp h

/-- A write lists no address but its own beside the ones listed. -/
theorem Memory.mem_write {m : Memory} {a : Nat} {v : Byte} {c : Host.Cell} (h : c ∈ m.write a v) :
    c = (a, v) ∨ c ∈ m := by
  induction m with
  | nil => exact Memory.mem_consCell h
  | cons d m ih =>
    unfold Memory.write at h
    split at h
    · exact Memory.mem_consCell h
    · split at h
      · exact (Memory.mem_consCell h).imp_right (List.mem_cons_of_mem _)
      · rcases List.mem_cons.mp h with rfl | h
        · exact .inr (by simp)
        · exact (ih h).imp_right (List.mem_cons_of_mem _)

/-- A write keeps the canonical form. -/
theorem Memory.wf_write {m : Memory} (h : m.wf) {a : Nat} (ha : a < 256) (v : Byte) : (m.write a v).wf := by
  induction m with
  | nil => exact Memory.wf_consCell v h ha (by simp)
  | cons c m ih =>
    obtain ⟨k, w⟩ := c
    have hb := Memory.below_of_wf h
    simp only at hb
    unfold Memory.write
    split <;> rename_i hk
    · refine Memory.wf_consCell v h ha ?_
      intro d hd
      rcases List.mem_cons.mp hd with rfl | hd
      · exact hk
      · exact lt_trans hk (hb d hd)
    · split <;> rename_i hk'
      · subst hk'; exact Memory.wf_consCell v (Memory.wf_tail h) ha hb
      · have ih := ih (Memory.wf_tail h)
        refine ⟨List.pairwise_cons.mpr ⟨?_, ih.1⟩, ?_⟩
        · intro d hd
          rcases Memory.mem_write hd with rfl | hd
          · simp only; omega
          · exact hb d hd
        · intro d hd
          rcases List.mem_cons.mp hd with rfl | hd
          · exact h.2 _ (by simp)
          · exact ih.2 d hd

/-- Canonical RAMs with the same bytes are equal data. -/
theorem Memory.ext_of_read {m n : Memory} (hm : m.wf) (hn : n.wf) (h : ∀ a, m.read a = n.read a) : m = n := by
  induction m generalizing n with
  | nil =>
    cases n with
    | nil => rfl
    | cons c n =>
      obtain ⟨k, w⟩ := c
      have := h k
      simp only [Memory.read_nil, Memory.read_cons, if_true] at this
      exact absurd this.symm (hn.2 (k, w) (by simp)).2
  | cons c m ih =>
    obtain ⟨k, w⟩ := c
    have hbm := Memory.below_of_wf hm
    have hw := (hm.2 (k, w) (by simp)).2
    cases n with
    | nil =>
      have := h k
      simp only [Memory.read_nil, Memory.read_cons, if_true] at this
      exact absurd this hw
    | cons d n =>
      obtain ⟨l, u⟩ := d
      have hbn := Memory.below_of_wf hn
      have hu := (hn.2 (l, u) (by simp)).2
      simp only at hbm hbn hw hu
      have hkl : k = l := by
        rcases lt_trichotomy k l with hlt | heq | hgt
        · have hk := h k
          rw [Memory.read_cons, if_pos rfl, Memory.read_cons, if_neg (by omega),
            Memory.read_of_below fun c hc => lt_trans hlt (hbn c hc)] at hk
          exact absurd hk hw
        · exact heq
        · have hl := h l
          rw [Memory.read_cons, if_neg (by omega), Memory.read_cons, if_pos rfl,
            Memory.read_of_below fun c hc => lt_trans hgt (hbm c hc)] at hl
          exact absurd hl.symm hu
      subst hkl
      have hwu : w = u := by simpa using h k
      subst hwu
      refine congrArg _ (ih (Memory.wf_tail hm) (Memory.wf_tail hn) fun a => ?_)
      by_cases hka : k = a
      · subst hka; rw [Memory.read_of_below hbm, Memory.read_of_below hbn]
      · simpa [hka] using h a

/-- The state's own read after its own write. -/
theorem State.memRead_memWrite {s : State} (h : s.ram.wf) (a v b : Byte) :
    (s.memWrite a v).memRead b = if a = b then v else s.memRead b := by
  unfold State.memRead State.memWrite
  simp only [Memory.read_write h, BitVec.toNat_inj]

end Sys2Proof.Machine
end

