-- ==== Sys2Proof/Laws/State.lean ====
section
/-! SUPPORT. The plain updates of the state, field by field, and for each shared operation one equation that says all it
does as a single record update (cited instead of unfolding the operation). -/

namespace Sys2Proof.Machine

/-! ### `emit` -/

section
variable (s : State) (e : Event)

@[simp] theorem State.emit_ram : (s.emit e).ram = s.ram := rfl
@[simp] theorem State.emit_ioModeLatch : (s.emit e).ioModeLatch = s.ioModeLatch := rfl
@[simp] theorem State.emit_addressLatch : (s.emit e).addressLatch = s.addressLatch := rfl
@[simp] theorem State.emit_command : (s.emit e).command = s.command := rfl
@[simp] theorem State.emit_status : (s.emit e).status = s.status := rfl
@[simp] theorem State.emit_latchA : (s.emit e).latchA = s.latchA := rfl
@[simp] theorem State.emit_latchB : (s.emit e).latchB = s.latchB := rfl
@[simp] theorem State.emit_latchC : (s.emit e).latchC = s.latchC := rfl
@[simp] theorem State.emit_countLength : (s.emit e).countLength = s.countLength := rfl
@[simp] theorem State.emit_countLoaded : (s.emit e).countLoaded = s.countLoaded := rfl
@[simp] theorem State.emit_countEvenPhase : (s.emit e).countEvenPhase = s.countEvenPhase := rfl
@[simp] theorem State.emit_toLevel : (s.emit e).toLevel = s.toLevel := rfl
@[simp] theorem State.emit_halfEvt : (s.emit e).halfEvt = s.halfEvt := rfl
@[simp] theorem State.emit_tcEvt : (s.emit e).tcEvt = s.tcEvt := rfl
@[simp] theorem State.emit_unmodelled : (s.emit e).unmodelled = s.unmodelled := rfl
@[simp] theorem State.emit_pending : (s.emit e).pending = s.pending := rfl
@[simp] theorem State.emit_inputDraws : (s.emit e).inputDraws = s.inputDraws := rfl
@[simp] theorem State.emit_freeDraws : (s.emit e).freeDraws = s.freeDraws := rfl
@[simp] theorem State.emit_returned : (s.emit e).returned = s.returned := rfl
@[simp] theorem State.emit_trace : (s.emit e).trace = s.trace ++ [e] := rfl
@[simp] theorem State.emit_params : (s.emit e).params = s.params := rfl
@[simp] theorem State.emit_chip : (s.emit e).chip = s.chip := rfl

end

/-! ### `answer` -/

section
variable (s : State) (v : Byte)

@[simp] theorem State.answer_ram : (s.answer v).ram = s.ram := rfl
@[simp] theorem State.answer_ioModeLatch : (s.answer v).ioModeLatch = s.ioModeLatch := rfl
@[simp] theorem State.answer_addressLatch : (s.answer v).addressLatch = s.addressLatch := rfl
@[simp] theorem State.answer_command : (s.answer v).command = s.command := rfl
@[simp] theorem State.answer_status : (s.answer v).status = s.status := rfl
@[simp] theorem State.answer_latchA : (s.answer v).latchA = s.latchA := rfl
@[simp] theorem State.answer_latchB : (s.answer v).latchB = s.latchB := rfl
@[simp] theorem State.answer_latchC : (s.answer v).latchC = s.latchC := rfl
@[simp] theorem State.answer_countLength : (s.answer v).countLength = s.countLength := rfl
@[simp] theorem State.answer_countLoaded : (s.answer v).countLoaded = s.countLoaded := rfl
@[simp] theorem State.answer_countEvenPhase : (s.answer v).countEvenPhase = s.countEvenPhase := rfl
@[simp] theorem State.answer_toLevel : (s.answer v).toLevel = s.toLevel := rfl
@[simp] theorem State.answer_halfEvt : (s.answer v).halfEvt = s.halfEvt := rfl
@[simp] theorem State.answer_tcEvt : (s.answer v).tcEvt = s.tcEvt := rfl
@[simp] theorem State.answer_unmodelled : (s.answer v).unmodelled = s.unmodelled := rfl
@[simp] theorem State.answer_pending : (s.answer v).pending = s.pending := rfl
@[simp] theorem State.answer_inputDraws : (s.answer v).inputDraws = s.inputDraws := rfl
@[simp] theorem State.answer_freeDraws : (s.answer v).freeDraws = s.freeDraws := rfl
@[simp] theorem State.answer_returned : (s.answer v).returned = s.returned ++ [v] := rfl
@[simp] theorem State.answer_trace : (s.answer v).trace = s.trace := rfl
@[simp] theorem State.answer_params : (s.answer v).params = s.params := rfl
@[simp] theorem State.answer_chip : (s.answer v).chip = s.chip := rfl

end

/-! ### `mark` -/

section
variable (s : State)

@[simp] theorem State.mark_ram : (s.mark).ram = s.ram := rfl
@[simp] theorem State.mark_ioModeLatch : (s.mark).ioModeLatch = s.ioModeLatch := rfl
@[simp] theorem State.mark_addressLatch : (s.mark).addressLatch = s.addressLatch := rfl
@[simp] theorem State.mark_command : (s.mark).command = s.command := rfl
@[simp] theorem State.mark_status : (s.mark).status = s.status := rfl
@[simp] theorem State.mark_latchA : (s.mark).latchA = s.latchA := rfl
@[simp] theorem State.mark_latchB : (s.mark).latchB = s.latchB := rfl
@[simp] theorem State.mark_latchC : (s.mark).latchC = s.latchC := rfl
@[simp] theorem State.mark_countLength : (s.mark).countLength = s.countLength := rfl
@[simp] theorem State.mark_countLoaded : (s.mark).countLoaded = s.countLoaded := rfl
@[simp] theorem State.mark_countEvenPhase : (s.mark).countEvenPhase = s.countEvenPhase := rfl
@[simp] theorem State.mark_toLevel : (s.mark).toLevel = s.toLevel := rfl
@[simp] theorem State.mark_halfEvt : (s.mark).halfEvt = s.halfEvt := rfl
@[simp] theorem State.mark_tcEvt : (s.mark).tcEvt = s.tcEvt := rfl
@[simp] theorem State.mark_unmodelled : (s.mark).unmodelled = true := rfl
@[simp] theorem State.mark_pending : (s.mark).pending = s.pending := rfl
@[simp] theorem State.mark_inputDraws : (s.mark).inputDraws = s.inputDraws := rfl
@[simp] theorem State.mark_freeDraws : (s.mark).freeDraws = s.freeDraws := rfl
@[simp] theorem State.mark_returned : (s.mark).returned = s.returned := rfl
@[simp] theorem State.mark_trace : (s.mark).trace = s.trace := rfl
@[simp] theorem State.mark_params : (s.mark).params = s.params := rfl
@[simp] theorem State.mark_chip : (s.mark).chip = s.chip := rfl

end

/-! ### `memWrite` -/

section
variable (s : State) (a v : Byte)

@[simp] theorem State.memWrite_ram : (s.memWrite a v).ram = s.ram.write a.toNat v := rfl
@[simp] theorem State.memWrite_ioModeLatch : (s.memWrite a v).ioModeLatch = s.ioModeLatch := rfl
@[simp] theorem State.memWrite_addressLatch : (s.memWrite a v).addressLatch = s.addressLatch := rfl
@[simp] theorem State.memWrite_command : (s.memWrite a v).command = s.command := rfl
@[simp] theorem State.memWrite_status : (s.memWrite a v).status = s.status := rfl
@[simp] theorem State.memWrite_latchA : (s.memWrite a v).latchA = s.latchA := rfl
@[simp] theorem State.memWrite_latchB : (s.memWrite a v).latchB = s.latchB := rfl
@[simp] theorem State.memWrite_latchC : (s.memWrite a v).latchC = s.latchC := rfl
@[simp] theorem State.memWrite_countLength : (s.memWrite a v).countLength = s.countLength := rfl
@[simp] theorem State.memWrite_countLoaded : (s.memWrite a v).countLoaded = s.countLoaded := rfl
@[simp] theorem State.memWrite_countEvenPhase : (s.memWrite a v).countEvenPhase = s.countEvenPhase := rfl
@[simp] theorem State.memWrite_toLevel : (s.memWrite a v).toLevel = s.toLevel := rfl
@[simp] theorem State.memWrite_halfEvt : (s.memWrite a v).halfEvt = s.halfEvt := rfl
@[simp] theorem State.memWrite_tcEvt : (s.memWrite a v).tcEvt = s.tcEvt := rfl
@[simp] theorem State.memWrite_unmodelled : (s.memWrite a v).unmodelled = s.unmodelled := rfl
@[simp] theorem State.memWrite_pending : (s.memWrite a v).pending = s.pending := rfl
@[simp] theorem State.memWrite_inputDraws : (s.memWrite a v).inputDraws = s.inputDraws := rfl
@[simp] theorem State.memWrite_freeDraws : (s.memWrite a v).freeDraws = s.freeDraws := rfl
@[simp] theorem State.memWrite_returned : (s.memWrite a v).returned = s.returned := rfl
@[simp] theorem State.memWrite_trace : (s.memWrite a v).trace = s.trace := rfl
@[simp] theorem State.memWrite_params : (s.memWrite a v).params = s.params := rfl
@[simp] theorem State.memWrite_chip : (s.memWrite a v).chip = s.chip := rfl

end

/-! ### `request` -/

section
variable (s : State) (rs : List Request)

@[simp] theorem State.request_ram : (s.request rs).ram = s.ram := rfl
@[simp] theorem State.request_ioModeLatch : (s.request rs).ioModeLatch = s.ioModeLatch := rfl
@[simp] theorem State.request_addressLatch : (s.request rs).addressLatch = s.addressLatch := rfl
@[simp] theorem State.request_command : (s.request rs).command = s.command := rfl
@[simp] theorem State.request_status : (s.request rs).status = s.status := rfl
@[simp] theorem State.request_latchA : (s.request rs).latchA = s.latchA := rfl
@[simp] theorem State.request_latchB : (s.request rs).latchB = s.latchB := rfl
@[simp] theorem State.request_latchC : (s.request rs).latchC = s.latchC := rfl
@[simp] theorem State.request_countLength : (s.request rs).countLength = s.countLength := rfl
@[simp] theorem State.request_countLoaded : (s.request rs).countLoaded = s.countLoaded := rfl
@[simp] theorem State.request_countEvenPhase : (s.request rs).countEvenPhase = s.countEvenPhase := rfl
@[simp] theorem State.request_toLevel : (s.request rs).toLevel = s.toLevel := rfl
@[simp] theorem State.request_halfEvt : (s.request rs).halfEvt = s.halfEvt := rfl
@[simp] theorem State.request_tcEvt : (s.request rs).tcEvt = s.tcEvt := rfl
@[simp] theorem State.request_unmodelled : (s.request rs).unmodelled = s.unmodelled := rfl
@[simp] theorem State.request_pending : (s.request rs).pending = s.pending ++ rs := rfl
@[simp] theorem State.request_inputDraws : (s.request rs).inputDraws = s.inputDraws := rfl
@[simp] theorem State.request_freeDraws : (s.request rs).freeDraws = s.freeDraws := rfl
@[simp] theorem State.request_returned : (s.request rs).returned = s.returned := rfl
@[simp] theorem State.request_trace : (s.request rs).trace = s.trace := rfl
@[simp] theorem State.request_params : (s.request rs).params = s.params := rfl
@[simp] theorem State.request_chip : (s.request rs).chip = s.chip := rfl

end

/-! ### Equations of the shared operations -/

/-- `SetTO`: the level, and one event if it changes. -/
theorem State.setTO_eq (s : State) (l : Bool) :
    s.setTO l = { s with toLevel := l, trace := s.trace ++ (if s.toLevel = l then [] else [.toPin l]) } := by
  unfold State.setTO
  split <;> rename_i h
  · subst h; simp
  · simp [State.emit]

/-- The flush of port A. -/
theorem State.flushA_eq (s : State) (old d : Byte) :
    s.flushA old d = { s with
      trace := s.trace ++ (if d.getLsbD 0 && !old.getLsbD 0 then [.portOut .A s.latchA] else []) } := by
  unfold State.flushA
  split
  · rfl
  · simp

/-- The flush of port B. -/
theorem State.flushB_eq (s : State) (old d : Byte) :
    s.flushB old d = { s with
      trace := s.trace ++ (if d.getLsbD 1 && !old.getLsbD 1 then [.portOut .B s.latchB] else []) } := by
  unfold State.flushB
  split
  · rfl
  · simp

/-- The mark of a COMMAND byte. -/
theorem State.markUnspecified_eq (s : State) (d : Byte) :
    s.markUnspecified d = { s with unmodelled := s.unmodelled || usesUnspecified d } := by
  unfold State.markUnspecified
  split <;> rename_i h
  · simp [State.mark, h]
  · simp [h]

/-- `CommandWrite` without its TM action. -/
theorem State.commandWrite_eq (s : State) (d : Byte) :
    s.commandWrite d = { s with
      command := d
      trace := s.trace ++ (if d.getLsbD 0 && !s.command.getLsbD 0 then [.portOut .A s.latchA] else []) ++
        (if d.getLsbD 1 && !s.command.getLsbD 1 then [.portOut .B s.latchB] else [])
      unmodelled := s.unmodelled || usesUnspecified d } := by
  simp only [State.commandWrite, State.flushA_eq, State.flushB_eq, State.markUnspecified_eq]

/-- `Input`: a byte, and only the two draw fields move. -/
theorem State.input_cases (s : State) :
    (∃ v rest, s.inputDraws = v :: rest ∧ s.input = (v, { s with inputDraws := rest })) ∨
    (s.inputDraws = [] ∧ s.input = (Config.freeInput s.chip s.freeDraws, { s with freeDraws := s.freeDraws + 1 })) := by
  unfold State.input
  cases h : s.inputDraws with
  | nil => simp
  | cons v rest => simp

/-- `TimerStop`. -/
theorem State.timerStop_eq (s : State) :
    s.timerStop = { s with
      halfEvt := none
      tcEvt := none
      countLoaded := countReg (modeOf s.countLoaded) s.liveCount
      toLevel := true
      trace := s.trace ++ (if s.toLevel = true then [] else [.toPin true]) } := by
  unfold State.timerStop
  rw [State.setTO_eq]

/-- A count register is its mode and its length. -/
@[simp] theorem countReg_modeOf_lengthOf (c : CountReg) : countReg (modeOf c) (lengthOf c) = c := by
  unfold countReg modeOf lengthOf
  refine BitVec.eq_of_getLsbD_eq fun i hi => ?_
  rw [BitVec.getLsbD_append]
  split <;> rename_i h
  · simp [h]
  · simp [show i - 14 < 2 by omega, show 14 + (i - 14) = i by omega]

@[simp] theorem modeOf_countReg (m : BitVec 2) (l : Count) : modeOf (countReg m l) = m := by
  unfold countReg modeOf
  refine BitVec.eq_of_getLsbD_eq fun i hi => ?_
  rw [BitVec.getLsbD_extractLsb', BitVec.getLsbD_append]
  simp [hi]

@[simp] theorem lengthOf_countReg (m : BitVec 2) (l : Count) : lengthOf (countReg m l) = l := by
  unfold countReg lengthOf
  refine BitVec.eq_of_getLsbD_eq fun i hi => ?_
  rw [BitVec.getLsbD_extractLsb', BitVec.getLsbD_append]
  simp [hi]

/-- On a stopped timer the live count is the stored length. -/
theorem State.liveCount_stopped {s : State} (h : s.halfEvt = none) : s.liveCount = lengthOf s.countLoaded := by
  simp [State.liveCount, h]

/-- `TimerStop` on a stopped timer only drops a terminal-count event and drives TO high. -/
theorem State.timerStop_stopped {s : State} (h : s.halfEvt = none) :
    s.timerStop = { s with
      tcEvt := none
      toLevel := true
      trace := s.trace ++ (if s.toLevel = true then [] else [.toPin true]) } := by
  rw [State.timerStop_eq, State.liveCount_stopped h, countReg_modeOf_lengthOf]
  simp [h]

/-- On a running timer the live count as a number. -/
theorem State.liveCount_running {s : State} {n : Nat} (h : s.halfEvt = some n) :
    s.liveCount.toNat = min (2 * n + s.parityBit) (lengthOf s.countLoaded).toNat := by
  simp only [State.liveCount, h, BitVec.toNat_ofNat]
  exact Nat.mod_eq_of_lt (lt_of_le_of_lt (Nat.min_le_right _ _) (lengthOf s.countLoaded).isLt)

/-- `TimerReload` with a length below 2, on a timer whose half-period event is not pending. -/
theorem State.timerReload_short {s : State} (hh : s.halfEvt = none) (hl : (lengthOf s.countLength).toNat < 2) :
    s.timerReload = { s with
      countLoaded := s.countLength
      tcEvt := none
      toLevel := true
      trace := s.trace ++ (if s.toLevel = true then [] else [.toPin true]) } := by
  simp only [State.timerReload, hl, if_true]
  rw [State.timerStop_stopped (s := { s with countLoaded := s.countLength }) hh]

/-- `TimerReload` with a length of at least 2. -/
theorem State.timerReload_long {s : State} (hl : 2 ≤ (lengthOf s.countLength).toNat) :
    s.timerReload = { s with
      countLoaded := s.countLength
      countEvenPhase := false
      halfEvt := some (halfUp (lengthOf s.countLength).toNat)
      toLevel := true
      trace := s.trace ++ (if s.toLevel = true then [] else [.toPin true]) } := by
  simp [State.timerReload, Nat.not_lt.mpr hl, State.setTO_eq]

end Sys2Proof.Machine
end

