-- ==== Sys2Proof/Laws/Timer.lean ====
section
/-! SUPPORT. The timer's procedures and events as equations and inversions: what each event does, when one is due, and that
four firings always suffice (spec/44_timer_engine.md R183 to R187). -/

namespace Sys2Proof.Machine

theorem halfUp_pos {n : Nat} (h : 1 ≤ n) : 1 ≤ halfUp n := by unfold halfUp; omega

theorem halfDown_pos {n : Nat} (h : 2 ≤ n) : 1 ≤ halfDown n := by unfold halfDown; omega

/-- The two halves make the period (R189). -/
theorem halfUp_add_halfDown (n : Nat) : halfUp n + halfDown n = n := by unfold halfUp halfDown; omega

/-- A length fits 14 bits. -/
theorem lengthOf_lt (c : CountReg) : (lengthOf c).toNat < 16384 := (lengthOf c).isLt

/-- The terminal-count event (R185). -/
theorem State.tcEvent_eq (s : State) :
    s.tcEvent = { s with
      status := setTimerFlag s.status
      toLevel := if tcPulse s.countLoaded then false else s.toLevel
      trace := s.trace ++ (if tcPulse s.countLoaded then (if s.toLevel = false then [] else [.toPin false]) else []) } := by
  unfold State.tcEvent
  cases h : tcPulse s.countLoaded <;> simp [State.setTO_eq]

/-- The end of the odd half in a TC_PULSE mode (R183). -/
theorem State.oddHalfEnd_pulse {s : State} (h : tcPulse s.countLoaded = true) :
    s.oddHalfEnd = { s with
      halfEvt := some (halfDown (lengthOf s.countLoaded).toNat)
      countEvenPhase := true
      tcEvt := some (halfDown (lengthOf s.countLoaded).toNat - s.params.tcLead) } := by
  simp [State.oddHalfEnd, h, State.armTc]

/-- The end of the odd half in a square-wave mode (R183). -/
theorem State.oddHalfEnd_square {s : State} (h : tcPulse s.countLoaded = false) :
    s.oddHalfEnd = { s with
      halfEvt := some (halfDown (lengthOf s.countLoaded).toNat)
      countEvenPhase := true
      tcEvt := if s.params.tcFlagAllModes then some (halfDown (lengthOf s.countLoaded).toNat - s.params.tcLead)
        else s.tcEvt
      toLevel := false
      trace := s.trace ++ (if s.toLevel = false then [] else [.toPin false]) } := by
  cases hp : s.params.tcFlagAllModes <;> simp [State.oddHalfEnd, h, hp, State.armTc, State.setTO_eq]

/-- Whether terminal count stops the timer rather than reloading it (R184). -/
def State.stopsAtTerminalCount (s : State) : Bool := !autoReload s.countLoaded || timerCommand s.command == 0b10#2

/-- The end of the even half that stops, once its event is disarmed (R184). -/
theorem State.evenHalfEnd_stop {s : State} (hh : s.halfEvt = none) (h : s.stopsAtTerminalCount = true) :
    s.evenHalfEnd = { s with
      countEvenPhase := false
      tcEvt := none
      toLevel := true
      trace := s.trace ++ (if s.toLevel = true then [] else [.toPin true]) } := by
  have h' : (!autoReload s.countLoaded || timerCommand s.command == 0b10#2) = true := h
  simp only [State.evenHalfEnd, h', if_true]
  rw [State.timerStop_stopped (by simpa [State.setTO_eq] using hh)]
  simp [State.setTO_eq]

/-- The end of the even half that reloads (R184). -/
theorem State.evenHalfEnd_reload {s : State} (h : s.stopsAtTerminalCount = false) :
    s.evenHalfEnd = ({ s.setTO true with countEvenPhase := false } : State).timerReload := by
  have h' : (!autoReload s.countLoaded || timerCommand s.command == 0b10#2) = false := h
  simp only [State.evenHalfEnd, h', Bool.false_eq_true, if_false]

/-- No event is due exactly when no counter is 0 (R187). -/
theorem State.fireNext_none_iff (s : State) : s.fireNext = none ↔ s.tcEvt ≠ some 0 ∧ s.halfEvt ≠ some 0 := by
  unfold State.fireNext
  split
  · simp [*]
  · split
    · split <;> simp [*]
    · simp [*]

/-- Which event fires next: what one firing can do, guards included (R187). -/
theorem State.fireNext_cases {s t : State} (h : s.fireNext = some t) :
    (s.tcEvt = some 0 ∧ t = ({ s with tcEvt := none } : State).tcEvent) ∨
    (s.tcEvt ≠ some 0 ∧ s.halfEvt = some 0 ∧ s.countEvenPhase = true ∧
      t = ({ s with halfEvt := none } : State).evenHalfEnd) ∨
    (s.tcEvt ≠ some 0 ∧ s.halfEvt = some 0 ∧ s.countEvenPhase = false ∧
      t = ({ s with halfEvt := none } : State).oddHalfEnd) := by
  unfold State.fireNext at h
  split at h
  · rename_i h0; exact .inl ⟨h0, (Option.some.inj h).symm⟩
  · rename_i h0
    split at h
    · rename_i h1
      split at h
      · rename_i h2; exact .inr (.inl ⟨h0, h1, h2, (Option.some.inj h).symm⟩)
      · rename_i h2; exact .inr (.inr ⟨h0, h1, by simpa using h2, (Option.some.inj h).symm⟩)
    · cases h

/-- How many more firings a state can need. -/
def State.dueWork (s : State) : Nat :=
  (if s.tcEvt = some 0 then 1 else 0) + (if s.halfEvt = some 0 then (if s.countEvenPhase then 1 else 3) else 0)

theorem State.dueWork_le (s : State) : s.dueWork ≤ 4 := by
  unfold State.dueWork
  split <;> split <;> (try split) <;> omega

/-- The end of an even half leaves no event due that was not due before. -/
theorem State.dueWork_evenHalfEnd {s : State} (hh : s.halfEvt = none) (ht : s.tcEvt ≠ some 0) :
    s.evenHalfEnd.dueWork = 0 := by
  cases h : s.stopsAtTerminalCount with
  | true => rw [State.evenHalfEnd_stop hh h]; simp [State.dueWork, hh]
  | false =>
    rw [State.evenHalfEnd_reload h]
    by_cases hl : (lengthOf s.countLength).toNat < 2
    · rw [State.timerReload_short (by simpa [State.setTO_eq] using hh) (by simpa [State.setTO_eq] using hl)]
      simp [State.dueWork, State.setTO_eq, hh]
    · have hl' : 2 ≤ (lengthOf s.countLength).toNat := by omega
      have hp : halfUp (lengthOf s.countLength).toNat ≠ 0 := by
        have := halfUp_pos (Nat.le_of_succ_le hl'); omega
      rw [State.timerReload_long (by simpa [State.setTO_eq] using hl')]
      simp [State.dueWork, State.setTO_eq, ht, hp]

/-- Each firing leaves less to fire. -/
theorem State.dueWork_fireNext {s t : State} (h : s.fireNext = some t) : t.dueWork < s.dueWork := by
  rcases State.fireNext_cases h with ⟨h0, rfl⟩ | ⟨h0, h1, h2, rfl⟩ | ⟨h0, h1, h2, rfl⟩
  · rw [State.tcEvent_eq]; simp [State.dueWork, h0]
  · rw [State.dueWork_evenHalfEnd rfl (by simpa using h0)]; simp [State.dueWork, h0, h1, h2]
  · have hs : s.dueWork = 3 := by simp [State.dueWork, h0, h1, h2]
    have ht : ∀ u : State, u.countEvenPhase = true → u.dueWork ≤ 2 := by
      intro u hu; unfold State.dueWork; rw [hu]; split <;> split <;> simp
    rw [hs]
    refine Nat.lt_succ_of_le (ht _ ?_)
    cases hp : tcPulse s.countLoaded with
    | true => rw [State.oddHalfEnd_pulse (by simpa using hp)]
    | false => rw [State.oddHalfEnd_square (by simpa using hp)]

/-- With nothing due the loop changes nothing. -/
theorem State.fireUpTo_of_none {s : State} (h : s.fireNext = none) (n : Nat) : s.fireUpTo n = s := by
  cases n with
  | zero => rfl
  | succ n => simp [State.fireUpTo, h]

/-- One event of the loop. -/
theorem State.fireUpTo_of_some {s t : State} (h : s.fireNext = some t) (n : Nat) : s.fireUpTo (n + 1) = t.fireUpTo n := by
  simp [State.fireUpTo, h]

/-- `FireDue` where the half-period event alone is due: that event, then what it left due. -/
theorem State.fireDue_of_half {s : State} (ht : s.tcEvt ≠ some 0) (hh : s.halfEvt = some 0) :
    s.fireDue = (if s.countEvenPhase then ({ s with halfEvt := none } : State).evenHalfEnd
      else ({ s with halfEvt := none } : State).oddHalfEnd).fireUpTo 3 := by
  refine State.fireUpTo_of_some ?_ 3
  unfold State.fireNext
  rw [if_neg ht, if_pos hh]
  split <;> rfl

/-- `FireDue` where the terminal-count event is due: it fires first (R187). -/
theorem State.fireDue_of_tc {s : State} (ht : s.tcEvt = some 0) :
    s.fireDue = (({ s with tcEvt := none } : State).tcEvent).fireUpTo 3 := by
  refine State.fireUpTo_of_some ?_ 3
  unfold State.fireNext
  rw [if_pos ht]

/-- Enough fuel leaves nothing due. -/
theorem State.fireUpTo_none_due {n : Nat} {s : State} (h : s.dueWork ≤ n) : (s.fireUpTo n).fireNext = none := by
  induction n generalizing s with
  | zero =>
    cases hf : s.fireNext with
    | none => simpa [State.fireUpTo] using hf
    | some t => exact absurd (State.dueWork_fireNext hf) (by omega)
  | succ n ih =>
    cases hf : s.fireNext with
    | none => rw [State.fireUpTo_of_none hf]; exact hf
    | some t =>
      simp only [State.fireUpTo, hf]
      exact ih (by have := State.dueWork_fireNext hf; omega)

/-- `FireDue` leaves nothing due, from any state: its four firings are enough (R187; log 27). -/
theorem fireDue_none_due (s : State) : s.fireDue.fireNext = none := State.fireUpTo_none_due s.dueWork_le

/-- More fuel than four changes nothing. -/
theorem fireUpTo_eq_fireDue (s : State) (n : Nat) : s.fireUpTo (n + 4) = s.fireDue := by
  have : ∀ (k m : Nat) (u : State), u.dueWork ≤ k → u.fireUpTo (m + k) = u.fireUpTo k := by
    intro k
    induction k with
    | zero =>
      intro m u hu
      have hn : u.fireNext = none := by
        cases hf : u.fireNext with
        | none => rfl
        | some t => exact absurd (State.dueWork_fireNext hf) (by omega)
      rw [State.fireUpTo_of_none hn, State.fireUpTo_of_none hn]
    | succ k ih =>
      intro m u hu
      cases hf : u.fireNext with
      | none => rw [State.fireUpTo_of_none hf, State.fireUpTo_of_none hf]
      | some t =>
        rw [show m + (k + 1) = (m + k) + 1 by omega]
        simp only [State.fireUpTo, hf]
        exact ih m t (by have := State.dueWork_fireNext hf; omega)
  exact this 4 n s s.dueWork_le

/-- A property every firing keeps is kept by `FireDue`. -/
theorem State.fireDue_induct {P : State → Prop} (step : ∀ s t : State, P s → s.fireNext = some t → P t) {s : State}
    (h : P s) : P s.fireDue := by
  have : ∀ n (u : State), P u → P (u.fireUpTo n) := by
    intro n
    induction n with
    | zero => intro u hu; exact hu
    | succ n ih =>
      intro u hu
      cases hf : u.fireNext with
      | none => rw [State.fireUpTo_of_none hf]; exact hu
      | some t => simp only [State.fireUpTo, hf]; exact ih t (step u t hu hf)
  exact this 4 s h

/-- Ticks add up. -/
theorem State.clockTicks_add (s : State) (m n : Nat) : s.clockTicks (m + n) = (s.clockTicks m).clockTicks n := by
  induction m generalizing s with
  | zero => simp [State.clockTicks]
  | succ m ih => rw [show m + 1 + n = (m + n) + 1 by omega]; simp only [State.clockTicks]; exact ih _

end Sys2Proof.Machine
end

