-- ==== Sys2Proof/Laws/Exec.lean ====
section
/-! SUPPORT. What each operation can do, said once (`Effect`, `exec_effect`), and what the timer's procedures leave alone
(`TimerOnly`), for the statements over all operations. -/

namespace Sys2Proof.Machine

/-! ### The timer's procedures touch only the timer, STATUS and the trace -/

/-- Only timer fields, STATUS and the trace may differ. -/
structure TimerOnly (s t : State) : Prop where
  ram : t.ram = s.ram
  ioModeLatch : t.ioModeLatch = s.ioModeLatch
  addressLatch : t.addressLatch = s.addressLatch
  command : t.command = s.command
  latchA : t.latchA = s.latchA
  latchB : t.latchB = s.latchB
  latchC : t.latchC = s.latchC
  countLength : t.countLength = s.countLength
  unmodelled : t.unmodelled = s.unmodelled
  pending : t.pending = s.pending
  inputDraws : t.inputDraws = s.inputDraws
  freeDraws : t.freeDraws = s.freeDraws
  returned : t.returned = s.returned
  params : t.params = s.params
  chip : t.chip = s.chip

theorem TimerOnly.refl (s : State) : TimerOnly s s := by constructor <;> rfl

theorem TimerOnly.trans {s t u : State} (h : TimerOnly s t) (k : TimerOnly t u) : TimerOnly s u :=
  ⟨k.ram.trans h.ram, k.ioModeLatch.trans h.ioModeLatch, k.addressLatch.trans h.addressLatch,
    k.command.trans h.command, k.latchA.trans h.latchA, k.latchB.trans h.latchB, k.latchC.trans h.latchC,
    k.countLength.trans h.countLength, k.unmodelled.trans h.unmodelled, k.pending.trans h.pending,
    k.inputDraws.trans h.inputDraws, k.freeDraws.trans h.freeDraws, k.returned.trans h.returned,
    k.params.trans h.params, k.chip.trans h.chip⟩

theorem State.setTO_only (s : State) (l : Bool) : TimerOnly s (s.setTO l) := by
  rw [State.setTO_eq]; constructor <;> rfl

theorem State.timerStop_only (s : State) : TimerOnly s s.timerStop := by
  rw [State.timerStop_eq]; constructor <;> rfl

theorem State.timerReload_only (s : State) : TimerOnly s s.timerReload := by
  unfold State.timerReload
  simp only
  split
  · rw [State.timerStop_eq]; constructor <;> rfl
  · rw [State.setTO_eq]; constructor <;> rfl

theorem State.timerStart_only (s : State) : TimerOnly s s.timerStart := by
  unfold State.timerStart
  split
  · exact .refl _
  · exact s.timerReload_only

theorem State.timerAction_only (s : State) (tm : BitVec 2) : TimerOnly s (s.timerAction tm) := by
  unfold State.timerAction
  split
  · exact s.timerStop_only
  · split
    · exact s.timerStart_only
    · exact .refl _

theorem State.fireNext_only {s t : State} (h : s.fireNext = some t) : TimerOnly s t := by
  rcases State.fireNext_cases h with ⟨_, rfl⟩ | ⟨_, _, _, rfl⟩ | ⟨_, _, _, rfl⟩
  · rw [State.tcEvent_eq]; constructor <;> rfl
  · have hs : ∀ u : State, TimerOnly u { u.setTO true with countEvenPhase := false } := by
      intro u; rw [State.setTO_eq]; constructor <;> rfl
    refine TimerOnly.trans (t := { s with halfEvt := none }) (by constructor <;> rfl) ?_
    unfold State.evenHalfEnd
    simp only
    split
    · exact (hs _).trans (State.timerStop_only _)
    · exact (hs _).trans (State.timerReload_only _)
  · cases hp : tcPulse s.countLoaded with
    | true => rw [State.oddHalfEnd_pulse (by simpa using hp)]; constructor <;> rfl
    | false => rw [State.oddHalfEnd_square (by simpa using hp)]; constructor <;> rfl

theorem State.clockTick_only (s : State) : TimerOnly s s.clockTick :=
  State.fireDue_induct (P := TimerOnly s) (fun _ _ h k => h.trans (State.fireNext_only k))
    (by constructor <;> rfl)

/-! ### STATUS -/

theorem getLsbD_setTimerFlag (v : Byte) (k : Nat) : (setTimerFlag v).getLsbD k = (v.getLsbD k || decide (k = 6)) := by
  unfold setTimerFlag
  rw [BitVec.getLsbD_or]
  by_cases h : k < 8
  · interval_cases k <;> simp
  · simp [BitVec.getLsbD_of_ge _ _ (by omega : 8 ≤ k)]; omega

theorem getLsbD_clearTimerFlag (v : Byte) (k : Nat) :
    (clearTimerFlag v).getLsbD k = (v.getLsbD k && decide (k ≠ 6)) := by
  unfold clearTimerFlag
  rw [BitVec.getLsbD_and]
  by_cases h : k < 8
  · interval_cases k <;> simp
  · simp [BitVec.getLsbD_of_ge _ _ (by omega : 8 ≤ k)]

theorem setTimerFlag_twice (v : Byte) : setTimerFlag (setTimerFlag v) = setTimerFlag v := by
  unfold setTimerFlag
  refine BitVec.eq_of_getLsbD_eq fun i hi => ?_
  simp

theorem State.timerReload_status (s : State) : s.timerReload.status = s.status := by
  unfold State.timerReload
  simp only
  split
  · rw [State.timerStop_eq]
  · rw [State.setTO_eq]

theorem State.timerStart_status (s : State) : s.timerStart.status = s.status := by
  unfold State.timerStart
  split
  · rfl
  · exact s.timerReload_status

theorem State.timerAction_status (s : State) (tm : BitVec 2) : (s.timerAction tm).status = s.status := by
  unfold State.timerAction
  split
  · rw [State.timerStop_eq]
  · split
    · exact s.timerStart_status
    · rfl

/-- A firing leaves STATUS, or sets the flag. -/
theorem State.fireNext_status {s t : State} (h : s.fireNext = some t) :
    t.status = s.status ∨ t.status = setTimerFlag s.status := by
  rcases State.fireNext_cases h with ⟨_, rfl⟩ | ⟨_, _, _, rfl⟩ | ⟨_, _, _, rfl⟩
  · rw [State.tcEvent_eq]; exact .inr rfl
  · left
    unfold State.evenHalfEnd
    simp only
    split
    · rw [State.timerStop_eq, State.setTO_eq]
    · rw [State.timerReload_status, State.setTO_eq]
  · left
    cases hp : tcPulse s.countLoaded with
    | true => rw [State.oddHalfEnd_pulse (by simpa using hp)]
    | false => rw [State.oddHalfEnd_square (by simpa using hp)]

/-- A tick leaves STATUS, or sets the flag. -/
theorem State.clockTick_status (s : State) : s.clockTick.status = s.status ∨ s.clockTick.status = setTimerFlag s.status := by
  refine State.fireDue_induct (P := fun t => t.status = s.status ∨ t.status = setTimerFlag s.status)
    (fun a b ha hb => ?_) (.inl rfl)
  rcases State.fireNext_status hb with h | h <;> rcases ha with k | k <;> rw [k] at h <;>
    simp [h, setTimerFlag_twice]

/-! ### The COMMAND byte's unspecified features -/

theorem usesUnspecified_iff (d : Byte) : usesUnspecified d = true ↔
    d.extractLsb' 2 2 = 0b01#2 ∨ d.extractLsb' 2 2 = 0b10#2 ∨ d.getLsbD 4 = true ∨ d.getLsbD 5 = true := by
  simp [usesUnspecified, portCField, or_assoc]

theorem usesUnspecified_resetCommand (c : Byte) : usesUnspecified (resetCommand c) = (c.getLsbD 4 || c.getLsbD 5) := by
  have h : portCField (resetCommand c) = 0#2 := by
    unfold portCField resetCommand
    refine BitVec.eq_of_getLsbD_eq fun i hi => ?_
    simp only [BitVec.getLsbD_extractLsb', BitVec.getLsbD_and]
    interval_cases i <;> simp
  simp only [usesUnspecified, h]
  simp [resetCommand]

theorem timerCommand_resetCommand (c : Byte) : timerCommand (resetCommand c) = timerCommand c := by
  unfold timerCommand resetCommand
  refine BitVec.eq_of_getLsbD_eq fun i hi => ?_
  simp only [BitVec.getLsbD_extractLsb', BitVec.getLsbD_and]
  interval_cases i <;> simp

theorem modeC_strobed_iff (c : Byte) :
    modeC c = .strobed ↔ c.extractLsb' 2 2 = 0b01#2 ∨ c.extractLsb' 2 2 = 0b10#2 := by
  unfold modeC portCField
  generalize c.extractLsb' 2 2 = v
  revert v
  decide

/-- The COMMAND write of a reset: no port turns to output, so nothing is flushed (R231). -/
theorem State.commandWrite_resetCommand (s : State) :
    s.commandWrite (resetCommand s.command) = { s with
      command := resetCommand s.command
      unmodelled := s.unmodelled || usesUnspecified (resetCommand s.command) } := by
  rw [State.commandWrite_eq]
  have h0 : (resetCommand s.command).getLsbD 0 = false := by simp [resetCommand]
  have h1 : (resetCommand s.command).getLsbD 1 = false := by simp [resetCommand]
  simp only [h0, h1, Bool.false_and, Bool.false_eq_true, if_false, List.append_nil]

/-- The live count at the start of a period is the whole length, since the odd half is the longer one (R160, R189). -/
theorem State.liveCount_fresh {s : State} (h : s.halfEvt = some (halfUp (lengthOf s.countLoaded).toNat)) :
    s.liveCount = lengthOf s.countLoaded := by
  apply BitVec.eq_of_toNat_eq
  rw [State.liveCount_running h]
  unfold halfUp at *
  omega

/-! ### Every operation -/

/-- What an operation can do, by shape: the state after it. -/
inductive Effect (s : State) : Instr → State → Prop where
  | latched (m a) : Effect s (.ale m a) { s with ioModeLatch := m, addressLatch := a }
  | stored (a d) : Effect s (.wrRam a d) (s.memWrite a d)
  | answered (i v draws free) :
    Effect s i { s with returned := s.returned ++ [v], inputDraws := draws, freeDraws := free }
  | flagRead (x) : Effect s (.rdStatus x false)
      { s with returned := s.returned ++ [s.status], status := clearTimerFlag s.status }
  | strobedRead (x p) (h : modeC s.command = .strobed) :
    Effect s (.rdPc x p) { s with unmodelled := true, returned := s.returned ++ [0xC0#8] }
  | command (i x d) (h : i = .wrCmdNop x d ∨ i = .wrCmdStoptc x d) : Effect s i (s.commandWrite d)
  | commandStop (x d) : Effect s (.wrCmdStop x d) (s.commandWrite d).timerStop
  | commandStart (x d) : Effect s (.wrCmdStart x d) (s.commandWrite d).timerStart
  | portA (x d es) (h : ∀ l, .toPin l ∉ es) : Effect s (.wrPa x d) { s with latchA := d, trace := s.trace ++ es }
  | portB (x d es) (h : ∀ l, .toPin l ∉ es) : Effect s (.wrPb x d) { s with latchB := d, trace := s.trace ++ es }
  | portC (x d es) (h : ∀ l, .toPin l ∉ es) :
    Effect s (.wrPc x d) { s with latchC := portCBits d, trace := s.trace ++ es }
  | count (i x d c) (h : i = .wrTmrl x d ∨ i = .wrTmrh x d) : Effect s i { s with countLength := c }
  | nothing (i) : Effect s i s
  | tick : Effect s .tick s.clockTick
  | reset (t) (h : exec .reset s = .next t) : Effect s .reset t

/-- Every operation that answers has one of these effects. -/
theorem exec_effect {i : Instr} {s t : State} (h : exec i s = .next t) : Effect s i t := by
  cases i
  case rdStatus x p =>
    cases p <;> cases h
    · exact .flagRead x
    · exact .answered _ _ s.inputDraws s.freeDraws
  case rdPa x p =>
    simp only [exec, execRdPa] at h
    cases hm : modeA s.command <;> rcases s.input_cases with ⟨v, rest, _, h2⟩ | ⟨_, h2⟩ <;>
      simp only [h2, hm] at h <;> cases h <;> exact .answered _ _ _ _
  case rdPb x p =>
    simp only [exec, execRdPb] at h
    cases hm : modeB s.command <;> rcases s.input_cases with ⟨v, rest, _, h2⟩ | ⟨_, h2⟩ <;>
      simp only [h2, hm] at h <;> cases h <;> exact .answered _ _ _ _
  case rdPc x p =>
    simp only [exec, execRdPc] at h
    cases hm : modeC s.command <;> rcases s.input_cases with ⟨v, rest, _, h2⟩ | ⟨_, h2⟩ <;>
      simp only [h2, hm] at h <;> cases h <;> first | exact .strobedRead x p hm | exact .answered _ _ _ _
  case wrPa x d =>
    simp only [exec, execWrPa] at h
    cases hm : modeA s.command <;> simp only [hm] at h <;> cases h
    · simpa using Effect.portA (s := s) x d [] (by simp)
    · exact .portA x d [.portOut .A d] (by simp)
    · simpa using Effect.portA (s := s) x d [] (by simp)
  case wrPb x d =>
    simp only [exec, execWrPb] at h
    cases hm : modeB s.command <;> simp only [hm] at h <;> cases h
    · simpa using Effect.portB (s := s) x d [] (by simp)
    · exact .portB x d [.portOut .B d] (by simp)
    · simpa using Effect.portB (s := s) x d [] (by simp)
  case wrPc x d =>
    simp only [exec, execWrPc] at h
    cases hm : modeC s.command <;> simp only [hm] at h <;> cases h
    · simpa using Effect.portC (s := s) x d [] (by simp)
    · exact .portC x d [.portOut .C (portCBits d)] (by simp)
    · simpa using Effect.portC (s := s) x d [] (by simp)
  case reset => exact .reset t h
  all_goals cases h
  case ale m a => exact .latched m a
  case rdRam a p => exact .answered _ _ s.inputDraws s.freeDraws
  case wrRam a d => exact .stored a d
  case wrCmdNop x d => exact .command _ x d (.inl rfl)
  case wrCmdStop x d => exact .commandStop x d
  case wrCmdStoptc x d => exact .command _ x d (.inr rfl)
  case wrCmdStart x d => exact .commandStart x d
  case rdTmrl x p => exact .answered _ _ s.inputDraws s.freeDraws
  case wrTmrl x d => exact .count _ x d _ (.inl rfl)
  case rdTmrh x p => exact .answered _ _ s.inputDraws s.freeDraws
  case wrTmrh x d => exact .count _ x d _ (.inr rfl)
  case rdUnused x l p => exact .answered _ _ s.inputDraws _
  case wrUnused x l d => exact .nothing _
  case tick => exact .tick

/-- The fields a RESET leaves, all but the timer's count and phase (R231). -/
theorem execReset_fields {s t : State} (h : exec .reset s = .next t) :
    t.ram = s.ram ∧ t.ioModeLatch = s.ioModeLatch ∧ t.addressLatch = s.addressLatch ∧ t.countLength = s.countLength ∧
    t.command = resetCommand s.command ∧ t.status = clearTimerFlag s.status ∧
    t.latchA = 0#8 ∧ t.latchB = 0#8 ∧ t.latchC = 0#8 ∧ t.halfEvt = none ∧ t.tcEvt = none ∧ t.toLevel = true ∧
    t.unmodelled = (s.unmodelled || usesUnspecified (resetCommand s.command)) ∧ t.pending = s.pending ∧
    t.inputDraws = s.inputDraws ∧ t.freeDraws = s.freeDraws ∧ t.returned = s.returned ∧ t.params = s.params ∧
    t.chip = s.chip := by
  have hw := State.commandWrite_resetCommand ({ s with latchA := 0x00#8, latchB := 0x00#8, latchC := 0x00#8 } : State)
  simp only at hw
  simp only [exec, execReset, hw] at h
  cases h
  simp only [State.timerStop_eq]
  generalize hc : ({ s with
    command := resetCommand s.command, latchA := 0#8, latchB := 0#8, latchC := 0#8,
    unmodelled := s.unmodelled || usesUnspecified (resetCommand s.command) } : State) = c
  have h1 := c.timerAction_only (timerCommand (resetCommand s.command))
  have h2 := c.timerAction_status (timerCommand (resetCommand s.command))
  subst hc
  exact ⟨h1.ram, h1.ioModeLatch, h1.addressLatch, h1.countLength, h1.command, congrArg clearTimerFlag h2, h1.latchA,
    h1.latchB, h1.latchC, trivial, trivial, trivial, h1.unmodelled, h1.pending, h1.inputDraws, h1.freeDraws, h1.returned, h1.params,
    h1.chip⟩

end Sys2Proof.Machine
end

