-- ==== Sys2Proof/Laws/PerInstr.lean ====
section
/-! SUPPORT. Per operation: the row of the opcode table (spec/30_encoding.md R91) with its name covers its encoding. -/

namespace Sys2Proof.Laws.RowCoversEncoding

/-- Some row of the table with the operation's name covers the operation's descriptor, if it is well formed. -/
def Statement (i : Instr) : Prop :=
  i.wf = true → ∃ r ∈ opcodeTable, r.mnemonic = i.mnemonic ∧ r.covers (encode i) = true

/-- Two descriptors are equal when their 19 bits are, each a small closed question. -/
theorem covers_of_bits {w : Descriptor} {r : OpRow} (h : ∀ k, k < 19 → (w &&& r.mask).getLsbD k = r.pattern.getLsbD k) :
    r.covers w = true := by
  unfold OpRow.covers
  exact beq_iff_eq.2 (BitVec.eq_of_getLsbD_eq h)

/-- Bits 7 and 6 of a data byte, from its timer-command field. -/
theorem bits_of_field {d : Byte} {v : BitVec 2} (h : (d.extractLsb' 6 2 == v) = true) :
    d.getLsbD 6 = v.getLsbD 0 ∧ d.getLsbD 7 = v.getLsbD 1 := by
  have h' := beq_iff_eq.1 h
  subst h'
  simp

theorem ale (m : Space) (a : Byte) : Statement (.ale m a) := by
  intro _
  refine ⟨⟨"ALE", 0x00000, 0x600FF⟩, by decide, rfl, covers_of_bits fun k hk => ?_⟩
  cases m <;> simp only [encode, aleWord, bitOfSpace, BitVec.getLsbD_and, BitVec.getLsbD_append] <;>
    interval_cases k <;> simp

theorem rdRam (a : Byte) (p : Bool) : Statement (.rdRam a p) := by
  intro _
  refine ⟨⟨"RD_RAM", 0x20000, 0x700FE⟩, by decide, rfl, covers_of_bits fun k hk => ?_⟩
  simp only [encode, readWord, bitOfSpace, BitVec.getLsbD_and, BitVec.getLsbD_append]
  interval_cases k <;> simp

theorem wrRam (a : Byte) (d : Byte) : Statement (.wrRam a d) := by
  intro _
  refine ⟨⟨"WR_RAM", 0x40000, 0x70000⟩, by decide, rfl, covers_of_bits fun k hk => ?_⟩
  simp only [encode, writeWord, bitOfSpace, BitVec.getLsbD_and, BitVec.getLsbD_append]
  interval_cases k <;> simp

theorem rdStatus (x : BitVec 5) (p : Bool) : Statement (.rdStatus x p) := by
  intro _
  refine ⟨⟨"RD_STATUS", 0x30000, 0x707FE⟩, by decide, rfl, covers_of_bits fun k hk => ?_⟩
  simp only [encode, readWord, bitOfSpace, BitVec.getLsbD_and, BitVec.getLsbD_append]
  interval_cases k <;> simp

theorem wrCmdNop (x : BitVec 5) (d : Byte) : Statement (.wrCmdNop x d) := by
  intro h
  have hb := bits_of_field h
  simp at hb
  refine ⟨⟨"WR_CMD_NOP", 0x50000, 0x707C0⟩, by decide, rfl, covers_of_bits fun k hk => ?_⟩
  simp only [encode, writeWord, bitOfSpace, BitVec.getLsbD_and, BitVec.getLsbD_append]
  interval_cases k <;> simp [hb]

theorem wrCmdStop (x : BitVec 5) (d : Byte) : Statement (.wrCmdStop x d) := by
  intro h
  have hb := bits_of_field h
  simp at hb
  refine ⟨⟨"WR_CMD_STOP", 0x50040, 0x707C0⟩, by decide, rfl, covers_of_bits fun k hk => ?_⟩
  simp only [encode, writeWord, bitOfSpace, BitVec.getLsbD_and, BitVec.getLsbD_append]
  interval_cases k <;> simp [hb]

theorem wrCmdStoptc (x : BitVec 5) (d : Byte) : Statement (.wrCmdStoptc x d) := by
  intro h
  have hb := bits_of_field h
  simp at hb
  refine ⟨⟨"WR_CMD_STOPTC", 0x50080, 0x707C0⟩, by decide, rfl, covers_of_bits fun k hk => ?_⟩
  simp only [encode, writeWord, bitOfSpace, BitVec.getLsbD_and, BitVec.getLsbD_append]
  interval_cases k <;> simp [hb]

theorem wrCmdStart (x : BitVec 5) (d : Byte) : Statement (.wrCmdStart x d) := by
  intro h
  have hb := bits_of_field h
  simp at hb
  refine ⟨⟨"WR_CMD_START", 0x500C0, 0x707C0⟩, by decide, rfl, covers_of_bits fun k hk => ?_⟩
  simp only [encode, writeWord, bitOfSpace, BitVec.getLsbD_and, BitVec.getLsbD_append]
  interval_cases k <;> simp [hb]

theorem rdPa (x : BitVec 5) (p : Bool) : Statement (.rdPa x p) := by
  intro _
  refine ⟨⟨"RD_PA", 0x30100, 0x707FE⟩, by decide, rfl, covers_of_bits fun k hk => ?_⟩
  simp only [encode, readWord, bitOfSpace, BitVec.getLsbD_and, BitVec.getLsbD_append]
  interval_cases k <;> simp

theorem wrPa (x : BitVec 5) (d : Byte) : Statement (.wrPa x d) := by
  intro _
  refine ⟨⟨"WR_PA", 0x50100, 0x70700⟩, by decide, rfl, covers_of_bits fun k hk => ?_⟩
  simp only [encode, writeWord, bitOfSpace, BitVec.getLsbD_and, BitVec.getLsbD_append]
  interval_cases k <;> simp

theorem rdPb (x : BitVec 5) (p : Bool) : Statement (.rdPb x p) := by
  intro _
  refine ⟨⟨"RD_PB", 0x30200, 0x707FE⟩, by decide, rfl, covers_of_bits fun k hk => ?_⟩
  simp only [encode, readWord, bitOfSpace, BitVec.getLsbD_and, BitVec.getLsbD_append]
  interval_cases k <;> simp

theorem wrPb (x : BitVec 5) (d : Byte) : Statement (.wrPb x d) := by
  intro _
  refine ⟨⟨"WR_PB", 0x50200, 0x70700⟩, by decide, rfl, covers_of_bits fun k hk => ?_⟩
  simp only [encode, writeWord, bitOfSpace, BitVec.getLsbD_and, BitVec.getLsbD_append]
  interval_cases k <;> simp

theorem rdPc (x : BitVec 5) (p : Bool) : Statement (.rdPc x p) := by
  intro _
  refine ⟨⟨"RD_PC", 0x30300, 0x707FE⟩, by decide, rfl, covers_of_bits fun k hk => ?_⟩
  simp only [encode, readWord, bitOfSpace, BitVec.getLsbD_and, BitVec.getLsbD_append]
  interval_cases k <;> simp

theorem wrPc (x : BitVec 5) (d : Byte) : Statement (.wrPc x d) := by
  intro _
  refine ⟨⟨"WR_PC", 0x50300, 0x70700⟩, by decide, rfl, covers_of_bits fun k hk => ?_⟩
  simp only [encode, writeWord, bitOfSpace, BitVec.getLsbD_and, BitVec.getLsbD_append]
  interval_cases k <;> simp

theorem rdTmrl (x : BitVec 5) (p : Bool) : Statement (.rdTmrl x p) := by
  intro _
  refine ⟨⟨"RD_TMRL", 0x30400, 0x707FE⟩, by decide, rfl, covers_of_bits fun k hk => ?_⟩
  simp only [encode, readWord, bitOfSpace, BitVec.getLsbD_and, BitVec.getLsbD_append]
  interval_cases k <;> simp

theorem wrTmrl (x : BitVec 5) (d : Byte) : Statement (.wrTmrl x d) := by
  intro _
  refine ⟨⟨"WR_TMRL", 0x50400, 0x70700⟩, by decide, rfl, covers_of_bits fun k hk => ?_⟩
  simp only [encode, writeWord, bitOfSpace, BitVec.getLsbD_and, BitVec.getLsbD_append]
  interval_cases k <;> simp

theorem rdTmrh (x : BitVec 5) (p : Bool) : Statement (.rdTmrh x p) := by
  intro _
  refine ⟨⟨"RD_TMRH", 0x30500, 0x707FE⟩, by decide, rfl, covers_of_bits fun k hk => ?_⟩
  simp only [encode, readWord, bitOfSpace, BitVec.getLsbD_and, BitVec.getLsbD_append]
  interval_cases k <;> simp

theorem wrTmrh (x : BitVec 5) (d : Byte) : Statement (.wrTmrh x d) := by
  intro _
  refine ⟨⟨"WR_TMRH", 0x50500, 0x70700⟩, by decide, rfl, covers_of_bits fun k hk => ?_⟩
  simp only [encode, writeWord, bitOfSpace, BitVec.getLsbD_and, BitVec.getLsbD_append]
  interval_cases k <;> simp

theorem rdUnused (x : BitVec 5) (low : Bool) (p : Bool) : Statement (.rdUnused x low p) := by
  intro _
  refine ⟨⟨"RD_UNUSED", 0x30600, 0x706FE⟩, by decide, rfl, covers_of_bits fun k hk => ?_⟩
  simp only [encode, readWord, bitOfSpace, BitVec.getLsbD_and, BitVec.getLsbD_append]
  interval_cases k <;> simp

theorem wrUnused (x : BitVec 5) (low : Bool) (d : Byte) : Statement (.wrUnused x low d) := by
  intro _
  refine ⟨⟨"WR_UNUSED", 0x50600, 0x70600⟩, by decide, rfl, covers_of_bits fun k hk => ?_⟩
  simp only [encode, writeWord, bitOfSpace, BitVec.getLsbD_and, BitVec.getLsbD_append]
  interval_cases k <;> simp

theorem tick : Statement (.tick) := by
  intro _
  refine ⟨⟨"TICK", 0x60000, 0x7FFFF⟩, by decide, rfl, covers_of_bits fun k hk => ?_⟩
  simp only [encode, hostWord, BitVec.getLsbD_and, BitVec.getLsbD_append]
  interval_cases k <;> simp

theorem reset : Statement (.reset) := by
  intro _
  refine ⟨⟨"RESET", 0x60001, 0x7FFFF⟩, by decide, rfl, covers_of_bits fun k hk => ?_⟩
  simp only [encode, hostWord, BitVec.getLsbD_and, BitVec.getLsbD_append]
  interval_cases k <;> simp

end Sys2Proof.Laws.RowCoversEncoding
end

