-- ==== Sys2Proof/Tests/Slice0.lean ====
section
/-! SUPPORT. Tests: ill-formed terms, every row's word, one step per operation, and a witness for the hypotheses of every
statement. Expected values are from spec/95_test_vectors.md (L1, L2) or the examples in the rules named. -/

namespace Sys2Proof.Tests

open Sys2Proof.Machine

/-! ### Well-formedness: each check refuses an ill-formed term -/

theorem test_wf_nop : (Instr.wrCmdNop 0#5 0x40#8).wf = false := by decide
theorem test_wf_stop : (Instr.wrCmdStop 0#5 0x80#8).wf = false := by decide
theorem test_wf_stoptc : (Instr.wrCmdStoptc 0#5 0xC0#8).wf = false := by decide
theorem test_wf_start : (Instr.wrCmdStart 0#5 0x3F#8).wf = false := by decide

/-! ### Decoding: one word per row, bit by bit from the encodings of R91 -/

theorem test_decode_ale : decode 0b00_1_00101100_00000000#19 = .ok (.ale .io 0x2C#8) := by decide
theorem test_decode_rdRam : decode 0b01_0_01111111_00000001#19 = .ok (.rdRam 0x7F#8 true) := by decide
theorem test_decode_wrRam : decode 0b10_0_00010000_10100101#19 = .ok (.wrRam 0x10#8 0xA5#8) := by decide
theorem test_decode_rdStatus : decode 0b01_1_11111000_00000001#19 = .ok (.rdStatus 0b11111#5 true) := by decide
theorem test_decode_wrCmdNop : decode 0b10_1_10000000_00111111#19 = .ok (.wrCmdNop 0b10000#5 0x3F#8) := by decide
theorem test_decode_wrCmdStop : decode 0b10_1_00001000_01000000#19 = .ok (.wrCmdStop 0b00001#5 0x40#8) := by decide
theorem test_decode_wrCmdStoptc : decode 0b10_1_00000000_10000001#19 = .ok (.wrCmdStoptc 0#5 0x81#8) := by decide
theorem test_decode_wrCmdStart : decode 0b10_1_00000000_11000000#19 = .ok (.wrCmdStart 0#5 0xC0#8) := by decide
theorem test_decode_rdPa : decode 0b01_1_00010001_00000000#19 = .ok (.rdPa 0b00010#5 false) := by decide
theorem test_decode_wrPa : decode 0b10_1_00000001_10011001#19 = .ok (.wrPa 0#5 0x99#8) := by decide
theorem test_decode_rdPb : decode 0b01_1_00000010_00000001#19 = .ok (.rdPb 0#5 true) := by decide
theorem test_decode_wrPb : decode 0b10_1_01000010_00010000#19 = .ok (.wrPb 0b01000#5 0x10#8) := by decide
theorem test_decode_rdPc : decode 0b01_1_00000011_00000000#19 = .ok (.rdPc 0#5 false) := by decide
theorem test_decode_wrPc : decode 0b10_1_00000011_11111111#19 = .ok (.wrPc 0#5 0xFF#8) := by decide
theorem test_decode_rdTmrl : decode 0b01_1_00101100_00000000#19 = .ok (.rdTmrl 0b00101#5 false) := by decide
theorem test_decode_wrTmrl : decode 0b10_1_00000100_01100100#19 = .ok (.wrTmrl 0#5 0x64#8) := by decide
theorem test_decode_rdTmrh : decode 0b01_1_00000101_00000001#19 = .ok (.rdTmrh 0#5 true) := by decide
theorem test_decode_wrTmrh : decode 0b10_1_00000101_11000000#19 = .ok (.wrTmrh 0#5 0xC0#8) := by decide
theorem test_decode_rdUnused : decode 0b01_1_00000110_00000000#19 = .ok (.rdUnused 0#5 false false) := by decide
theorem test_decode_wrUnused : decode 0b10_1_11111111_11111111#19 = .ok (.wrUnused 0b11111#5 true 0xFF#8) := by decide
theorem test_decode_tick : decode 0b11_0_00000000_00000000#19 = .ok .tick := by decide
theorem test_decode_reset : decode 0b11_0_00000000_00000001#19 = .ok .reset := by decide

/-- The reserved words of L2.1 are refused, each by its class. -/
theorem test_decode_reserved :
    decode 0x01001#19 = .error .aleData ∧ decode 0x21003#19 = .error .readData ∧ decode 0x60002#19 = .error .host ∧
    decode 0x70000#19 = .error .host := by decide

/-- The host's numbering: 19 bits in three bytes, the bits above them 0. -/
theorem test_decodeTableWord :
    decodeTableWord 24 0x410A5 = some (.wrRam 0x10#8 0xA5#8) ∧ decodeTableWord 24 0x80000 = none ∧
    decodeTableWord 24 0x60002 = none := by decide

/-! ### One step: L2.2 to L2.7 -/

/-- The state an outcome leaves, if it is one. -/
def left (o : Host.Outcome State Fault Refusal) : Option State :=
  match o with
  | .next s => some s
  | .fault _ => none
  | .refused _ => none

/-- One field of the state an operation leaves. -/
def after {α : Type} (i : Instr) (s : State) (f : State → α) : Option α := (left (exec i s)).map f

/-- Right after creation and one RESET: TO is 1. -/
def postReset : State := { State.reset with toLevel := true, trace := [.toPin true] }

/-- Post-reset with a COMMAND byte and the output latches given. -/
def ports (command a b c : Byte) : State := { postReset with command := command, latchA := a, latchB := b, latchC := c }

/-- Post-reset with a running timer: the register it started with, its two events and its phase. -/
def running (c : CountReg) (half : Nat) (tc : Option Nat) (even : Bool) : State :=
  { postReset with
    command := 0xC0#8
    countLength := c
    countLoaded := c
    halfEvt := some half
    tcEvt := tc
    countEvenPhase := even }

/-- `P_TC_FLAG_ALL_MODES` = true. -/
def flagAlways : Config.Params := { Config.Params.standard with tcFlagAllModes := true }

theorem test_ale : after (.ale .io 0x2C#8) State.reset (fun t => (t.ioModeLatch, t.addressLatch)) = some (.io, 0x2C#8) := by
  decide

theorem test_rdRam : after (.rdRam 0x7F#8 false) { postReset with ram := [(0x7F, 0x5A#8)] } (·.returned) = some [0x5A#8] := by
  decide

theorem test_wrRam : after (.wrRam 0xFF#8 0x5A#8) postReset (·.ram) = some [(0xFF, 0x5A#8)] := by decide

/-- `WR 0x00` keeps the canonical form: the cell is no longer listed. -/
theorem test_wrRam_zero : after (.wrRam 0xFF#8 0x00#8) { postReset with ram := [(3, 1#8), (0xFF, 0x5A#8)] } (·.ram) =
    some [(3, 1#8)] := by decide

/-- L1-3. -/
theorem test_rdStatus : after (.rdStatus 0#5 false) { postReset with status := 0x40#8 } (fun t => (t.returned, t.status)) =
    some ([0x40#8], 0x00#8) := by decide

theorem test_rdStatus_peek : after (.rdStatus 0#5 true) { postReset with status := 0x40#8 } (fun t => (t.returned, t.status)) =
    some ([0x40#8], 0x40#8) := by decide

/-- L2.3: both ports turn to output; A is flushed before B (D10). -/
theorem test_wrCmdNop_flush : after (.wrCmdNop 0#5 0x03#8) (ports 0x00#8 0x3C#8 0x81#8 0#8) (·.trace) =
    some [.toPin true, .portOut .A 0x3C#8, .portOut .B 0x81#8] := by decide

theorem test_wrCmdNop_mark : after (.wrCmdNop 0#5 0x10#8) postReset (·.unmodelled) = some true := by decide

/-- L2.3: mode 0b01, L = 100, 30 ticks after START. -/
theorem test_wrCmdStop : after (.wrCmdStop 0#5 0x40#8) (running 0x4064#16 20 none false)
    (fun t => (t.countLoaded, t.halfEvt, t.trace)) = some (0x4029#16, none, [.toPin true]) := by decide

/-- L2.3: mode 0b10, L = 8, 7 ticks after START. -/
theorem test_wrCmdStop_pulse :
    after (.wrCmdStop 0#5 0x40#8) { running 0x8008#16 1 none true with toLevel := false, status := 0x40#8 }
      (fun t => (t.countLoaded, t.status, t.trace)) = some (0x8002#16, 0x40#8, [.toPin true, .toPin true]) := by decide

theorem test_wrCmdStoptc : after (.wrCmdStoptc 0#5 0x80#8) (running 0x4004#16 2 none false)
    (fun t => (t.command, t.halfEvt)) = some (0x80#8, some 2) := by decide

theorem test_wrCmdStart : after (.wrCmdStart 0#5 0xC0#8) { postReset with countLength := 0x4064#16 }
    (fun t => (t.halfEvt, t.countLoaded, t.countEvenPhase, t.trace)) =
      some (some 50, 0x4064#16, false, [.toPin true]) := by decide

/-- L1-6: a length of 1 does not start the timer. -/
theorem test_wrCmdStart_short : after (.wrCmdStart 0#5 0xC0#8) { postReset with countLength := 0xC001#16 }
    (fun t => (t.halfEvt, t.tcEvt, t.countLoaded, t.toLevel)) = some (none, none, 0xC001#16, true) := by decide

theorem test_rdPa_output : after (.rdPa 0#5 false) (ports 0x01#8 0x3C#8 0#8 0#8) (·.returned) = some [0x3C#8] := by decide

theorem test_rdPa_input : after (.rdPa 0#5 false) { postReset with inputDraws := [0x12#8, 0x34#8] }
    (fun t => (t.returned, t.inputDraws)) = some ([0x12#8], [0x34#8]) := by decide

theorem test_wrPa_input : after (.wrPa 0#5 0x99#8) postReset (fun t => (t.latchA, t.trace)) =
    some (0x99#8, [.toPin true]) := by decide

/-- D11: an equal value still emits. -/
theorem test_wrPa_equal : after (.wrPa 0#5 0x3C#8) (ports 0x01#8 0x3C#8 0#8 0#8) (·.trace) =
    some [.toPin true, .portOut .A 0x3C#8] := by decide

theorem test_rdPb_input : after (.rdPb 0#5 false) { ports 0x01#8 0#8 0x77#8 0#8 with inputDraws := [0xA5#8] } (·.returned) =
    some [0xA5#8] := by decide

theorem test_wrPb : after (.wrPb 0#5 0x10#8) (ports 0x02#8 0#8 0#8 0#8) (fun t => (t.latchB, t.trace)) =
    some (0x10#8, [.toPin true, .portOut .B 0x10#8]) := by decide

theorem test_rdPc_input : after (.rdPc 0#5 false) { postReset with inputDraws := [0b101010#8] } (·.returned) =
    some [0xEA#8] := by decide

theorem test_rdPc_strobed : after (.rdPc 0#5 false) (ports 0x04#8 0#8 0#8 0x2A#8) (fun t => (t.returned, t.unmodelled)) =
    some ([0xC0#8], true) := by decide

theorem test_wrPc_output : after (.wrPc 0#5 0xFF#8) (ports 0x0C#8 0#8 0#8 0#8) (fun t => (t.latchC, t.trace)) =
    some (0x3F#8, [.toPin true, .portOut .C 0x3F#8]) := by decide

theorem test_wrPc_strobed : after (.wrPc 0#5 0xAA#8) (ports 0x08#8 0#8 0#8 0#8) (fun t => (t.latchC, t.trace)) =
    some (0x2A#8, [.toPin true]) := by decide

/-- The example of R161: one tick after START with L = 100. -/
theorem test_rdTmrl : after (.rdTmrl 0#5 false) (running 0x4064#16 49 none false) (·.returned) = some [0x63#8] := by decide

/-- L2.5: L = 5, tick 1, with `P_ODD_HALF_BIT` = 0. -/
theorem test_rdTmrl_parameter : after (.rdTmrl 0#5 false)
    { running 0x4005#16 2 none false with params := { Config.Params.standard with oddHalfBit := false } } (·.returned) =
      some [0x04#8] := by decide

/-- The example of R162. -/
theorem test_rdTmrh : after (.rdTmrh 0#5 false) (running 0x7FFF#16 8192 none false) (·.returned) = some [0x7F#8] := by decide

theorem test_wrTmrl : after (.wrTmrl 0#5 0x64#8) { postReset with countLength := 0x4000#16 } (·.countLength) =
    some 0x4064#16 := by decide

theorem test_wrTmrh : after (.wrTmrh 0#5 0xC0#8) { postReset with countLength := 0x0064#16 } (·.countLength) =
    some 0xC064#16 := by decide

theorem test_rdUnused : after (.rdUnused 0#5 false false) postReset (fun t => (t.returned.length, t.freeDraws)) =
    some (1, 1) := by decide

theorem test_wrUnused : after (.wrUnused 0#5 true 0xFF#8) postReset (fun t => (t.command, t.countLength, t.trace)) =
    some (0x00#8, 0x0000#16, [.toPin true]) := by decide

/-- The example of R186. -/
theorem test_tick_odd_end : after .tick (running 0x4064#16 1 none false)
    (fun t => (t.halfEvt, t.countEvenPhase, t.toLevel, t.trace)) =
      some (some 50, true, false, [.toPin true, .toPin false]) := by decide

theorem test_reset : after .reset (ports 0x0F#8 1#8 2#8 3#8)
    (fun t => (t.command, [t.latchA, t.latchB, t.latchC], t.halfEvt, t.trace)) =
      some (0x00#8, [0#8, 0#8, 0#8], none, [.toPin true]) := by decide

/-- RESET with `TM = START` held and the timer stopped: the restart's effect is the copy of `count_length` (D15). -/
theorem test_reset_start : after .reset { postReset with command := 0xC0#8, countLength := 0x4064#16 }
    (fun t => (t.countLoaded, t.halfEvt, t.command)) = some (0x4064#16, none, 0xC0#8) := by decide

/-- A word the host places runs as the very next step. -/
theorem test_withFetchWord : (left (step (State.reset.withFetchWord 24 0x60001))).map (·.toLevel) = some true := by decide

/-- A reserved word is refused, and the host's later requests do not run. -/
theorem test_step_reserved : left (step (State.reset.withFetchWord 24 0x60002)) = none := by decide

/-- The script notation: `SETCOUNT 100, 0b01` (R95, L1-4) and `PEEK` (R95). -/
theorem test_setCount : assemble [.setCount 100#14 0b01#2] =
    [.word 0x10400#19, .latchedWrite 0x64#8, .word 0x10500#19, .latchedWrite 0x40#8] := by decide

theorem test_peek : assemble [.peek 0x10#8, .ticks 2] =
    [.word 0x01000#19, .latchedRead false, .word 0x60000#19, .word 0x60000#19] := by decide

/-- Chips as created bear different names. -/
theorem test_namesDistinct : (System.created 3).namesDistinct := by decide

/-- The boot duty of R234 as far as it is checked. -/
theorem test_bootOrder :
    bootOrder [.reset, .wrTmrl 0#5 0x64#8, .wrTmrh 0#5 0x40#8, .wrCmdStart 0#5 0xC0#8] = true ∧
    bootOrder [.wrTmrl 0#5 0x64#8, .wrTmrh 0#5 0x40#8, .wrCmdStart 0#5 0xC0#8] = false ∧
    bootOrder [.reset, .wrTmrl 0#5 0x64#8, .wrCmdStart 0#5 0xC0#8] = false := by decide

/-! ### Witnesses: states and operands that meet the hypotheses of each statement -/

theorem witness_DecodeEncodeRoundTrip : (Instr.wrCmdStart 0b11111#5 0xFF#8).wf = true ∧ (Instr.wrCmdNop 0#5 0x3F#8).wf = true ∧
    (Instr.wrCmdStop 0#5 0x7F#8).wf = true ∧ (Instr.wrCmdStoptc 0#5 0x80#8).wf = true := by decide

theorem witness_EncodeDecodeRoundTrip : ∃ i, decode 0x5FFFF#19 = .ok i := ⟨_, rfl⟩

theorem witness_EveryDescriptorHasItsOneRow : (∃ i, decode 0x00000#19 = .ok i) ∧ ∃ e, decode 0x7FFFF#19 = .error e :=
  ⟨⟨_, rfl⟩, _, rfl⟩

theorem witness_IoAddressesAlias : (0x2C#8).extractLsb' 0 3 = (0x04#8).extractLsb' 0 3 := by decide

/-- The host has asked for one thing, with the latches given. -/
def asked (m : Space) (a : Byte) (r : Request) : State :=
  { State.reset with ioModeLatch := m, addressLatch := a, pending := [r] }

theorem witness_StepRunsTheDecodedRequest : (asked .io 0x00#8 (.latchedWrite 0xC0#8)).pending = [.latchedWrite 0xC0#8] ∧
    decode ((Request.latchedWrite 0xC0#8).descriptor .io 0x00#8) = .ok (.wrCmdStart 0#5 0xC0#8) := by decide

theorem witness_StepRefusesReserved : (asked .ram 0#8 (.word 0x00001#19)).pending = [.word 0x00001#19] ∧
    decode 0x00001#19 = .error .aleData := by decide

theorem witness_StepIdles : State.reset.pending = [] := rfl

/-- The latched reads: RAM and each I/O index, the two unused ones included. -/
theorem witness_LatchedRead :
    (∀ m a p, (asked m a (.latchedRead p)).pending = [.latchedRead p] ∧ (asked m a (.latchedRead p)).ioModeLatch = m ∧
      (asked m a (.latchedRead p)).addressLatch = a) ∧
    (0xF8#8).extractLsb' 0 3 = 0#3 ∧ (0x01#8).extractLsb' 0 3 = 1#3 ∧ (0x0A#8).extractLsb' 0 3 = 2#3 ∧
    (0xFB#8).extractLsb' 0 3 = 3#3 ∧ (0x2C#8).extractLsb' 0 3 = 4#3 ∧ (0x05#8).extractLsb' 0 3 = 5#3 ∧
    (0x06#8).extractLsb' 1 2 = 3#2 ∧ (0xFF#8).extractLsb' 1 2 = 3#2 := ⟨fun _ _ _ => ⟨rfl, rfl, rfl⟩, by decide⟩

theorem witness_LatchedRead_next : ∃ t, step (asked .io 0xFF#8 (.latchedRead false)) = .next t := ⟨_, rfl⟩

/-- The latched writes: as the reads, and the four timer commands at their boundaries. -/
theorem witness_LatchedWrite :
    (∀ m a d, (asked m a (.latchedWrite d)).pending = [.latchedWrite d] ∧ (asked m a (.latchedWrite d)).ioModeLatch = m ∧
      (asked m a (.latchedWrite d)).addressLatch = a) ∧
    (0x3F#8).extractLsb' 6 2 = 0b00#2 ∧ (0x40#8).extractLsb' 6 2 = 0b01#2 ∧ (0x80#8).extractLsb' 6 2 = 0b10#2 ∧
    (0xC0#8).extractLsb' 6 2 = 0b11#2 := ⟨fun _ _ _ => ⟨rfl, rfl, rfl⟩, by decide⟩

theorem witness_LatchedWrite_next : ∃ t, step (asked .io 0x00#8 (.latchedWrite 0xC0#8)) = .next t := ⟨_, rfl⟩

theorem witness_OnlyAleMovesTheLatches : (∀ m a, Instr.reset ≠ .ale m a) ∧ ∃ t, exec .reset State.reset = .next t :=
  ⟨fun _ _ => Instr.noConfusion, _, rfl⟩

theorem witness_AleStoresSpaceAndAddress : ∃ t, exec (.ale .io 0x2C#8) State.reset = .next t := ⟨_, rfl⟩

theorem witness_WrRamStoresExactlyOneByte : ({ State.reset with
    ram := [(0, 1#8), (255, 2#8)]
    pending := [.word (aleWord .ram 0xFF#8), .latchedWrite 0#8, .word (aleWord .ram 0xFF#8), .latchedRead false] } : State).ram.wf := by
  decide

theorem witness_OnlyWrRamStores : (∀ a d, Instr.reset ≠ .wrRam a d) ∧ ∃ t, exec .reset State.reset = .next t :=
  ⟨fun _ _ => Instr.noConfusion, _, rfl⟩

theorem witness_StopIsIdempotent : ∃ t, exec (.wrCmdStop 0#5 0x40#8) (running 0x4064#16 20 none false) = .next t := ⟨_, rfl⟩

theorem witness_CommandStartFromStopped : ({ postReset with countLength := 0x0002#16 } : State).halfEvt = none ∧
    2 ≤ ((0x0002#16).extractLsb' 0 14).toNat := by decide

theorem witness_CommandStartWithShortLength : postReset.halfEvt = none ∧ ((0xC001#16).extractLsb' 0 14).toNat < 2 := by decide

theorem witness_CommandStartWhileRunning : (running 0x4064#16 20 none false).halfEvt = some 20 := rfl

/-- The invariant holds of running states: at the longest odd half, and at the last tick of a pulse. -/
theorem witness_Inv_odd : (running 0x7FFF#16 8192 none false).Inv :=
  ⟨Memory.wf_nil, by decide, by decide, fun h e => by cases e; decide, fun n e => (by cases e), by decide⟩

theorem witness_Inv_even : (running 0x8002#16 1 (some 1) true).Inv :=
  ⟨Memory.wf_nil, by decide, by decide, fun h e => by cases e; decide,
    fun n e => by cases e; exact ⟨by decide, rfl, ⟨1, rfl, by decide⟩, fun _ => by decide⟩, by decide⟩

theorem witness_RunningCountIsBounded : (running 0x7FFF#16 8192 none false).halfEvt = some 8192 := rfl

theorem witness_TimerFlagChangesOnlyAsSaid :
    after .tick (running 0x8003#16 1 none false) (·.status) = some 0x40#8 ∧
    after .reset { postReset with status := 0x40#8 } (·.status) = some 0x00#8 := by decide

/-- The two ways a tick sets the flag, from states that meet the invariant (`witness_Inv_even` is the other state): the
event's last tick, and the end of an odd half that leaves it none. -/
theorem witness_TimerFlag_tick : (running 0x8003#16 1 none false).Inv ∧ (running 0x8002#16 1 (some 1) true).tcEvt = some 1 ∧
    (running 0x8003#16 1 none false).status.getLsbD 6 = false ∧
    (running 0x8003#16 1 none false).halfEvt = some 1 ∧ (0x8003#16).getLsbD 15 = true ∧
    (lengthOf 0x8003#16).toNat / 2 ≤ Config.Params.standard.tcLead :=
  ⟨⟨Memory.wf_nil, by decide, by decide, fun h e => by cases e; decide, fun n e => (by cases e), by decide⟩, by decide⟩

/-- Port modes: output and input of A and B, with and without a listed draw. -/
theorem witness_PortAAndB : (0x03#8).getLsbD 0 = true ∧ (0x03#8).getLsbD 1 = true ∧ (0xFC#8).getLsbD 0 = false ∧
    (0xFC#8).getLsbD 1 = false ∧ postReset.inputDraws = [] ∧
    ({ postReset with inputDraws := [0x12#8] } : State).inputDraws = [0x12#8] := by decide

/-- The modes of port C. -/
theorem witness_PortC : (0x0C#8).extractLsb' 2 2 = 0b11#2 ∧ (0x03#8).extractLsb' 2 2 = 0b00#2 ∧
    (0x04#8).extractLsb' 2 2 = 0b01#2 ∧ (0x08#8).extractLsb' 2 2 = 0b10#2 := by decide

/-- The four rows, with port C as output and as input, and START on a running and on a stopped timer. -/
theorem witness_PinsFollowLatchAndMode : (∃ t, exec (.wrCmdNop 0#5 0x0F#8) postReset = .next t) ∧
    (∃ t, exec (.wrCmdStop 0#5 0x4F#8) postReset = .next t) ∧ (∃ t, exec (.wrCmdStoptc 0#5 0x80#8) postReset = .next t) ∧
    (∃ t, exec (.wrCmdStart 0#5 0xC0#8) (running 0x4064#16 20 none false) = .next t) ∧
    (0x4F#8).extractLsb' 2 2 = 0b11#2 ∧ (0xC0#8).extractLsb' 2 2 = 0b00#2 ∧ postReset.halfEvt = none ∧
    (running 0x4064#16 20 none false).halfEvt ≠ none :=
  ⟨⟨_, rfl⟩, ⟨_, rfl⟩, ⟨_, rfl⟩, ⟨_, rfl⟩, by decide⟩

theorem witness_LiveCountValue : postReset.halfEvt = none ∧
    ((running 0x4064#16 1 none true).halfEvt, (running 0x4064#16 1 none true).countEvenPhase) = (some 1, true) ∧
    ((running 0x4064#16 1 none false).countEvenPhase, (running 0x4064#16 1 none false).params.oddHalfBit) = (false, true) ∧
    ({ (running 0x4064#16 1 none false) with params := { Config.Params.standard with oddHalfBit := false } } : State).params.oddHalfBit
      = false := by decide

theorem witness_CountWrites : postReset.halfEvt = none := rfl

theorem witness_DrivingToEmitsOnlyChanges : postReset.toLevel = true ∧ postReset.toLevel ≠ false := by decide

theorem witness_TickOnStoppedTimer : postReset.halfEvt = none ∧ postReset.tcEvt = none := by decide

theorem witness_TickBetweenEvents : (running 0x4064#16 2 none false).halfEvt = some (0 + 2) ∧
    (running 0x4064#16 2 none false).tcEvt = none ∧ (running 0x8064#16 3 (some 2) true).halfEvt = some (1 + 2) ∧
    (running 0x8064#16 3 (some 2) true).tcEvt = some (0 + 2) := by decide

/-- The four cases of the odd half's end: lengths where the lead just leaves a tick and where it just leaves none, at the
default parameters, with the flag in every mode, and with a lead of 0. -/
theorem witness_TickEndsTheOddHalf :
    ((running 0x0002#16 1 none false).params.tcFlagAllModes = false ∧ 2 ≤ (lengthOf 0x0002#16).toNat ∧
      (0x0002#16).getLsbD 15 = false) ∧
    (flagAlways.tcFlagAllModes = true ∧ (0x4004#16).getLsbD 15 = false ∧
      flagAlways.tcLead < (lengthOf 0x4004#16).toNat / 2) ∧
    ((0x8004#16).getLsbD 15 = true ∧ Config.Params.standard.tcLead < (lengthOf 0x8004#16).toNat / 2 ∧
      ({ Config.Params.standard with tcLead := 0 } : Config.Params).tcLead < (lengthOf 0x8002#16).toNat / 2) ∧
    ((0x8003#16).getLsbD 15 = true ∧ 2 ≤ (lengthOf 0x8003#16).toNat ∧
      (lengthOf 0x8003#16).toNat / 2 ≤ Config.Params.standard.tcLead ∧
      (lengthOf 0x4003#16).toNat / 2 ≤ flagAlways.tcLead) := by decide

theorem witness_TickFiresTerminalCount : (running 0x8064#16 2 (some 1) true).halfEvt = some (0 + 2) ∧
    (running 0x8064#16 2 (some 1) true).tcEvt = some 1 ∧ (0x8064#16).getLsbD 15 = true ∧ (0x4064#16).getLsbD 15 = false := by
  decide

/-- A stop at terminal count: by the mode, and by STOP AFTER TC. -/
theorem witness_TickEndsThePeriodAndStops : ((running 0x0064#16 1 none true).halfEvt, (running 0x0064#16 1 none true).tcEvt) =
      (some 1, none) ∧ (running 0x0064#16 1 none true).countEvenPhase = true ∧ (0x0064#16).getLsbD 14 = false ∧
    ({ running 0x4064#16 1 none true with command := 0x80#8 } : State).command.extractLsb' 6 2 = 0b10#2 := by decide

/-- A reload at terminal count, with a programmed length of 2 and of 1. -/
theorem witness_TickEndsThePeriodAndReloads : (0x4064#16).getLsbD 14 = true ∧
    (running 0x4064#16 1 none true).command.extractLsb' 6 2 ≠ 0b10#2 ∧ 2 ≤ (lengthOf 0x4002#16).toNat ∧
    (lengthOf 0x4001#16).toNat < 2 := by decide

/-- Both events due, in modes 0b10 (stop), 0b11 (reload, with a programmed length of 2 and of 1), and 0b01 under a held
STOP AFTER TC. -/
theorem witness_TerminalCountFiresFirst :
    ((running 0x8064#16 1 (some 1) true).halfEvt = some 1 ∧ (running 0x8064#16 1 (some 1) true).tcEvt = some 1 ∧
      (running 0x8064#16 1 (some 1) true).countEvenPhase = true ∧ (0x8064#16).getLsbD 14 = false) ∧
    ((0xC064#16).getLsbD 14 = true ∧ (running 0xC064#16 1 (some 1) true).command.extractLsb' 6 2 ≠ 0b10#2 ∧
      2 ≤ (lengthOf 0xC002#16).toNat ∧ (lengthOf 0xC001#16).toNat < 2) ∧
    ({ running 0x4064#16 1 (some 1) true with command := 0x80#8, params := flagAlways } : State).command.extractLsb' 6 2
      = 0b10#2 := by decide

/-- L2.6, `P_TC_LEAD` = 0, mode 0b10, L = 4, tick 4: TO falls and rises in one step. -/
theorem test_tick_together : after .tick (running 0x8004#16 1 (some 1) true) (fun t => (t.trace, t.status, t.halfEvt)) =
    some ([.toPin true, .toPin false, .toPin true], 0x40#8, none) := by decide

/-- START from Stopped, and both clauses of the mode: the shortest and the longest length. -/
theorem witness_OnePeriodWaveform : ({ postReset with countLength := 0xC002#16 } : State).params = Config.Params.standard ∧
    2 ≤ (lengthOf 0xC002#16).toNat ∧ (lengthOf 0xBFFF#16).toNat = 16383 ∧ (0xC0#8).extractLsb' 6 2 = 0b11#2 ∧
    (0xC002#16).getLsbD 14 = true ∧ (0xBFFF#16).getLsbD 14 = false := by decide

theorem witness_OnePeriodWaveform_next :
    ∃ t, exec (.wrCmdStart 0#5 0xC0#8) { postReset with countLength := 0xC002#16 } = .next t := ⟨_, rfl⟩

theorem witness_AutoReloadRepeatsForever : postReset.tcEvt = none ∧ postReset.halfEvt = none ∧ (0x7FFF#16).getLsbD 14 = true ∧
    (lengthOf 0x7FFF#16).toNat = 16383 ∧ ∃ t, exec (.wrCmdStart 0#5 0xC0#8) { postReset with countLength := 0x7FFF#16 } = .next t :=
  ⟨rfl, rfl, by decide, by decide, _, rfl⟩

theorem witness_EveryOperationIsTotal : (ports 0x04#8 0#8 0#8 0#8).command.extractLsb' 2 2 = 0b01#2 ∧
    postReset.halfEvt = none ∧ (lengthOf postReset.countLength).toNat < 2 := by decide

/-- RESET from running, from stopped with START held, and from stopped without. -/
theorem witness_StateAfterReset : (running 0x7FFF#16 8192 none false).halfEvt ≠ none ∧
    (postReset.halfEvt = none ∧ ({ postReset with command := 0xC0#8 } : State).command.extractLsb' 6 2 = 0b11#2) ∧
    postReset.command.extractLsb' 6 2 ≠ 0b11#2 := by decide

theorem witness_StateAfterReset_inv : postReset.Inv :=
  ⟨Memory.wf_nil, by decide, by decide, fun h e => (by cases e), fun n e => (by cases e), by decide⟩

theorem witness_StateAfterReset_start : ({ postReset with command := 0xC0#8 } : State).Inv :=
  ⟨Memory.wf_nil, by decide, by decide, fun h e => (by cases e), fun n e => (by cases e), by decide⟩

/-- A step from a state that meets the invariant, on the timer's last tick. -/
theorem witness_StepKeepsInvariant : ({ running 0x8002#16 1 (some 1) true with pending := [.word 0x60000#19] } : State).Inv ∧
    (left (step { running 0x8002#16 1 (some 1) true with pending := [.word 0x60000#19] })).isSome = true :=
  ⟨⟨witness_Inv_even.ram, witness_Inv_even.portC, witness_Inv_even.status, witness_Inv_even.half, witness_Inv_even.tc,
    witness_Inv_even.mark⟩, by decide⟩

theorem witness_StoppedTimerHoldsToHigh : postReset.HighWhenStopped ∧ (∃ t, step postReset = .next t) ∧
    (∃ t, exec .reset State.reset = .next t) ∧ (∃ t, exec (.wrCmdStop 0#5 0x40#8) State.reset = .next t) ∧
    ∃ t, exec (.wrCmdStart 0#5 0xC0#8) State.reset = .next t := ⟨fun _ => rfl, ⟨_, rfl⟩, ⟨_, rfl⟩, ⟨_, rfl⟩, _, rfl⟩

theorem witness_TraceRecordsEveryToChange : ∃ t, exec .tick (running 0x4064#16 1 none false) = .next t := ⟨_, rfl⟩

/-- Each field of `RegisterFrames` does change under an operation it names. -/
theorem witness_RegisterFrames :
    after (.wrCmdNop 0#5 0x01#8) postReset (·.command) = some 0x01#8 ∧ after (.wrPa 0#5 1#8) postReset (·.latchA) = some 1#8 ∧
    after (.wrPb 0#5 1#8) postReset (·.latchB) = some 1#8 ∧ after (.wrPc 0#5 1#8) postReset (·.latchC) = some 1#8 ∧
    after (.wrTmrl 0#5 1#8) postReset (·.countLength) = some 1#16 ∧
    after .tick (running 0x4064#16 2 none false) (·.halfEvt) = some (some 1) := by decide

theorem witness_MarkIsStickyAndSetOnlyAsSaid : postReset.unmodelled = false ∧
    after (.rdPc 0#5 true) (ports 0x04#8 0#8 0#8 0#8) (·.unmodelled) = some true ∧
    after .reset { postReset with command := 0x20#8 } (·.unmodelled) = some true := by decide

theorem witness_ParametersFixedAndVariantsAlike : ∃ t, exec .tick State.reset = .next t := ⟨_, rfl⟩

/-- One chip of two takes a step. -/
theorem witness_ChipsAreIndependent : ∃ sys, System.stepChip [asked .ram 0#8 (.word 0x60001#19), postReset] 0 = .next sys :=
  ⟨_, rfl⟩

end Sys2Proof.Tests
end

section
/-! O57 (spec/00_scope.md R2, R44): no operation changes the parameters or the chip's name, and every operation commutes
with setting the variant (`exec_withVariant`), since no rule reads it. -/

namespace Sys2Proof.Machine

/-! ### What no operation changes (R44) -/

/-- By the operation's effect: the timer's procedures are `TimerOnly`, all else writes neither field. -/
theorem exec_keeps_params_chip {i : Instr} {s t : State} (h : exec i s = .next t) :
    t.params = s.params ∧ t.chip = s.chip := by
  cases exec_effect h with
  | latched | stored | answered | flagRead | strobedRead | portA | portB | portC | count | nothing => exact ⟨rfl, rfl⟩
  | command => rw [State.commandWrite_eq]; exact ⟨rfl, rfl⟩
  | commandStop => rw [State.timerStop_eq, State.commandWrite_eq]; exact ⟨rfl, rfl⟩
  | commandStart x d =>
    have ht := (s.commandWrite d).timerStart_only
    rw [ht.params, ht.chip, State.commandWrite_eq]
    exact ⟨rfl, rfl⟩
  | tick => exact ⟨s.clockTick_only.params, s.clockTick_only.chip⟩
  | reset =>
    obtain ⟨-, -, -, -, -, -, -, -, -, -, -, -, -, -, -, -, -, hparams, hchip⟩ := execReset_fields h
    exact ⟨hparams, hchip⟩

/-! ### The same chip of the other variant (R2, D26) -/

/-- The state of a chip of the variant given, the same in all else. -/
def State.withVariant (s : State) (v : Config.Variant) : State :=
  { s with params := { s.params with variant := v } }

section
variable (s : State) (v : Config.Variant)

@[simp] theorem State.withVariant_command : (s.withVariant v).command = s.command := rfl
@[simp] theorem State.withVariant_status : (s.withVariant v).status = s.status := rfl
@[simp] theorem State.withVariant_countLoaded : (s.withVariant v).countLoaded = s.countLoaded := rfl
@[simp] theorem State.withVariant_halfEvt : (s.withVariant v).halfEvt = s.halfEvt := rfl

/-! Each shared operation commutes with the change of variant. -/

theorem State.input_withVariant : (s.withVariant v).input = (s.input.1, s.input.2.withVariant v) := by
  rcases s.input_cases with ⟨b, rest, hd, hi⟩ | ⟨hd, hi⟩ <;> rw [hi] <;> simp only [State.input, State.withVariant, hd]

theorem State.setTO_withVariant (l : Bool) : (s.withVariant v).setTO l = (s.setTO l).withVariant v := by
  simp only [State.setTO_eq]; rfl

theorem State.commandWrite_withVariant (d : Byte) :
    (s.withVariant v).commandWrite d = (s.commandWrite d).withVariant v := by
  simp only [State.commandWrite_eq]; rfl

theorem State.timerStop_withVariant : (s.withVariant v).timerStop = s.timerStop.withVariant v := by
  simp only [State.timerStop_eq]; rfl

theorem State.timerReload_withVariant : (s.withVariant v).timerReload = s.timerReload.withVariant v := by
  change (if (lengthOf s.countLength).toNat < 2
    then (({ s with countLoaded := s.countLength } : State).withVariant v).timerStop
    else (({ s with
      countLoaded := s.countLength
      countEvenPhase := false
      halfEvt := some (halfUp (lengthOf s.countLength).toNat) } : State).withVariant v).setTO true) = _
  rw [State.timerStop_withVariant, State.setTO_withVariant]
  exact (apply_ite (State.withVariant · v) _ _ _).symm

theorem State.timerStart_withVariant : (s.withVariant v).timerStart = s.timerStart.withVariant v := by
  cases hh : s.halfEvt with
  | none => simp only [State.timerStart, State.withVariant_halfEvt, hh, State.timerReload_withVariant]
  | some n => simp only [State.timerStart, State.withVariant_halfEvt, hh]

theorem State.timerAction_withVariant (tm : BitVec 2) :
    (s.withVariant v).timerAction tm = (s.timerAction tm).withVariant v := by
  unfold State.timerAction
  split
  · exact s.timerStop_withVariant v
  · split
    · exact s.timerStart_withVariant v
    · rfl

/-! The timer's events, and the loop that fires them. -/

theorem State.tcEvent_withVariant : (s.withVariant v).tcEvent = s.tcEvent.withVariant v := by
  simp only [State.tcEvent_eq]; rfl

theorem State.oddHalfEnd_withVariant : (s.withVariant v).oddHalfEnd = s.oddHalfEnd.withVariant v := by
  cases hp : tcPulse s.countLoaded with
  | true => rw [State.oddHalfEnd_pulse hp, State.oddHalfEnd_pulse (by simpa using hp)]; rfl
  | false => rw [State.oddHalfEnd_square hp, State.oddHalfEnd_square (by simpa using hp)]; rfl

theorem State.evenHalfEnd_withVariant : (s.withVariant v).evenHalfEnd = s.evenHalfEnd.withVariant v := by
  simp only [State.evenHalfEnd, State.withVariant_countLoaded, State.withVariant_command, State.setTO_withVariant]
  split
  · exact State.timerStop_withVariant { s.setTO true with countEvenPhase := false } v
  · exact State.timerReload_withVariant { s.setTO true with countEvenPhase := false } v

theorem State.fireNext_withVariant : (s.withVariant v).fireNext = s.fireNext.map (·.withVariant v) := by
  change (if s.tcEvt = some 0 then some (({ s with tcEvt := none } : State).withVariant v).tcEvent
    else if s.halfEvt = some 0 then
      if s.countEvenPhase then some (({ s with halfEvt := none } : State).withVariant v).evenHalfEnd
      else some (({ s with halfEvt := none } : State).withVariant v).oddHalfEnd
    else none) = _
  rw [State.tcEvent_withVariant, State.evenHalfEnd_withVariant, State.oddHalfEnd_withVariant]
  unfold State.fireNext
  split_ifs <;> rfl

end

theorem State.fireUpTo_withVariant (n : Nat) (s : State) (v : Config.Variant) :
    (s.withVariant v).fireUpTo n = (s.fireUpTo n).withVariant v := by
  induction n generalizing s with
  | zero => rfl
  | succ n ih =>
    have hv := s.fireNext_withVariant v
    cases hf : s.fireNext with
    | none => rw [hf] at hv; rw [State.fireUpTo_of_none hf, State.fireUpTo_of_none hv]
    | some t => rw [hf] at hv; rw [State.fireUpTo_of_some hf, State.fireUpTo_of_some hv, ih]

theorem State.clockTick_withVariant (s : State) (v : Config.Variant) :
    (s.withVariant v).clockTick = s.clockTick.withVariant v :=
  s.countDown.fireUpTo_withVariant 4 v

/-! Every operation commutes with it. -/

/-- A RESET is a COMMAND write, its timer action and a timer stop, each of which commutes (R231). -/
theorem execReset_withVariant {s t : State} (h : execReset s = .next t) (v : Config.Variant) :
    execReset (s.withVariant v) = .next (t.withVariant v) := by
  cases h
  have cleared_withVariant : ({ s.withVariant v with latchA := 0x00#8, latchB := 0x00#8, latchC := 0x00#8 } : State) =
      ({ s with latchA := 0x00#8, latchB := 0x00#8, latchC := 0x00#8 } : State).withVariant v := rfl
  have flagged_withVariant (u : State) : ({ u.withVariant v with status := clearTimerFlag u.status } : State) =
      ({ u with status := clearTimerFlag u.status } : State).withVariant v := rfl
  simp only [execReset]
  rw [cleared_withVariant, State.withVariant_command, State.commandWrite_withVariant, State.timerAction_withVariant,
    State.withVariant_status, flagged_withVariant, State.timerStop_withVariant]

/-- No operation reads the variant (R2): the port operations choose by the mode in COMMAND, which it does not touch. -/
theorem exec_withVariant {i : Instr} {s t : State} (h : exec i s = .next t) (v : Config.Variant) :
    exec i (s.withVariant v) = .next (t.withVariant v) := by
  cases i with
  | ale | rdRam | wrRam | rdTmrl | rdTmrh | wrTmrl | wrTmrh | rdUnused | wrUnused => cases h; rfl
  | rdStatus x p => cases p <;> cases h <;> rfl
  | wrCmdNop x d | wrCmdStoptc x d => cases h; exact congrArg _ (s.commandWrite_withVariant v d)
  | wrCmdStop x d =>
    cases h
    simp only [exec, execWrCmdStop, State.commandWrite_withVariant, State.timerStop_withVariant]
  | wrCmdStart x d =>
    cases h
    simp only [exec, execWrCmdStart, State.commandWrite_withVariant, State.timerStart_withVariant]
  | rdPa x p | rdPb x p | rdPc x p =>
    revert h
    simp only [exec, execRdPa, execRdPb, execRdPc, State.withVariant_command, State.input_withVariant]
    split <;> rintro ⟨⟩ <;> rfl
  | wrPa x d | wrPb x d | wrPc x d =>
    revert h
    simp only [exec, execWrPa, execWrPb, execWrPc, State.withVariant_command]
    split <;> rintro ⟨⟩ <;> rfl
  | tick => cases h; exact congrArg _ (s.clockTick_withVariant v)
  | reset => exact execReset_withVariant h v

/-- Settles O57: the parameters and the name stay (`exec_keeps_params_chip`), and `exec` commutes with the change of
variant (`exec_withVariant`). -/
theorem parametersFixedAndVariantsAlike : Obligations.ParametersFixedAndVariantsAlike := by
  intro i s t h
  obtain ⟨hparams, hchip⟩ := exec_keeps_params_chip h
  refine ⟨hparams, hchip, fun v => ?_⟩
  have hv := exec_withVariant h v
  rwa [State.withVariant, State.withVariant, hparams] at hv

end Sys2Proof.Machine
end

section
/-! O6 (spec/20_memory.md R53): an I/O access chooses its row by the register index alone, and `exec` looks at no ignored
address bit, so addresses of one index do the same. -/

namespace Sys2Proof.Machine

/-- The COMMAND row is the data byte's (R78), and none of the four reads the ignored address bits. -/
theorem exec_decodeCommand_ignoredBits (x y : BitVec 5) (d : Byte) (s : State) :
    exec (decodeCommand x d) s = exec (decodeCommand y d) s := by
  unfold decodeCommand
  split_ifs <;> rfl

section
variable {a b : Byte} (hindex : ioIndex a = ioIndex b)
include hindex

theorem exec_decodeRead_of_ioIndex_eq (p : Bool) (s : State) :
    exec (decodeRead .io a p) s = exec (decodeRead .io b p) s := by
  simp only [decodeRead, hindex]
  split_ifs <;> rfl

theorem exec_decodeWrite_of_ioIndex_eq (d : Byte) (s : State) :
    exec (decodeWrite .io a d) s = exec (decodeWrite .io b d) s := by
  simp only [decodeWrite, hindex]
  split_ifs
  · exact exec_decodeCommand_ignoredBits _ _ d s
  all_goals rfl

end

/-- Settles O6: each word decodes to the access its address selects, and equal indices execute alike. -/
theorem ioAddressesAlias : Obligations.IoAddressesAlias := by
  intro a b hindex
  exact ⟨fun p => ⟨_, _, decode_readWord .io a p, decode_readWord .io b p, exec_decodeRead_of_ioIndex_eq hindex p⟩,
    fun d => ⟨_, _, decode_writeWord .io a d, decode_writeWord .io b d, exec_decodeWrite_of_ioIndex_eq hindex d⟩⟩

end Sys2Proof.Machine
end

section
/-! Steps of the bus family (spec/40_bus_protocol.md): a step is the operation its request decodes to, a latched access takes
its operation from the latches (R101, R102), and the runs POKE and PEEK of spec/30_encoding.md R95 in one equation each. -/

namespace Sys2Proof.Machine

/-! ### One step -/

/-- A request that decodes is executed on the state with the request taken (R57, R62). -/
theorem step_of_decode {s : State} {r : Request} {rest : List Request} {i : Instr} (hr : s.pending = r :: rest)
    (hi : decode (r.descriptor s.ioModeLatch s.addressLatch) = .ok i) : step s = exec i { s with pending := rest } := by
  simp only [step, State.fetch, hr, hi]

section
variable {s : State} {rest : List Request}

theorem step_latchedRead {p : Bool} (hr : s.pending = .latchedRead p :: rest) :
    step s = exec (decodeRead s.ioModeLatch s.addressLatch p) { s with pending := rest } :=
  step_of_decode hr (decode_readWord _ _ p)

theorem step_latchedWrite {d : Byte} (hr : s.pending = .latchedWrite d :: rest) :
    step s = exec (decodeWrite s.ioModeLatch s.addressLatch d) { s with pending := rest } :=
  step_of_decode hr (decode_writeWord _ _ d)

theorem step_aleWord {m : Space} {a : Byte} (hr : s.pending = .word (aleWord m a) :: rest) :
    step s = .next { s with ioModeLatch := m, addressLatch := a, pending := rest } :=
  step_of_decode hr (decode_aleWord m a)

/-! ### Runs -/

theorem run_succ {t : State} (h : step s = .next t) (k : Nat) : core.run (k + 1) s = core.run k t := by
  have hcore : core.step s = .next t := h
  simp only [Host.Core.run, hcore]

/-- `POKE a, d`: the latched write goes to the RAM byte the ALE names (R95, R102). -/
theorem run_poke {a d : Byte} (hr : s.pending = .word (aleWord .ram a) :: .latchedWrite d :: rest) (k : Nat) :
    core.run (k + 2) s =
      core.run k { s.memWrite a d with ioModeLatch := .ram, addressLatch := a, pending := rest } := by
  rw [run_succ (step_aleWord hr)]
  exact run_succ (step_latchedWrite rfl) k

/-- `PEEK a`: the latched read returns the RAM byte the ALE names (R95, R101). -/
theorem run_peek {a : Byte} (hr : s.pending = .word (aleWord .ram a) :: .latchedRead false :: rest) (k : Nat) :
    core.run (k + 2) s =
      core.run k { s.answer (s.memRead a) with ioModeLatch := .ram, addressLatch := a, pending := rest } := by
  rw [run_succ (step_aleWord hr)]
  exact run_succ (step_latchedRead rfl) k

end

end Sys2Proof.Machine
end

section
/-! O9 (spec/40_bus_protocol.md R101): the read a space and address select, index by index, and the operations that leave the
address latches alone. -/

namespace Sys2Proof

/-! ### The read an address selects (R76) -/

section
variable {a : Byte} {p : Bool}

theorem decodeRead_index0 (h : ioIndex a = 0#3) : decodeRead .io a p = .rdStatus (ignoredBits a) p := by
  simp [decodeRead, h]

theorem decodeRead_index1 (h : ioIndex a = 1#3) : decodeRead .io a p = .rdPa (ignoredBits a) p := by
  simp [decodeRead, h]

theorem decodeRead_index2 (h : ioIndex a = 2#3) : decodeRead .io a p = .rdPb (ignoredBits a) p := by
  simp [decodeRead, h]

theorem decodeRead_index3 (h : ioIndex a = 3#3) : decodeRead .io a p = .rdPc (ignoredBits a) p := by
  simp [decodeRead, h]

theorem decodeRead_index4 (h : ioIndex a = 4#3) : decodeRead .io a p = .rdTmrl (ignoredBits a) p := by
  simp [decodeRead, h]

theorem decodeRead_index5 (h : ioIndex a = 5#3) : decodeRead .io a p = .rdTmrh (ignoredBits a) p := by
  simp [decodeRead, h]

/-- The indices 0b11x are the two unused ones. -/
theorem ioIndex_of_high_bits (h : a.extractLsb' 1 2 = 3#2) : ioIndex a = 6#3 ∨ ioIndex a = 7#3 := by
  have hsub : (ioIndex a).extractLsb' 1 2 = a.extractLsb' 1 2 := by
    refine BitVec.eq_of_getLsbD_eq fun k hk => ?_
    simp [ioIndex, hk]
  rw [h] at hsub
  revert hsub
  generalize ioIndex a = n
  revert n
  decide

theorem decodeRead_unused (h : a.extractLsb' 1 2 = 3#2) :
    decodeRead .io a p = .rdUnused (ignoredBits a) (a.getLsbD 0) p := by
  rcases ioIndex_of_high_bits h with h | h <;> simp [decodeRead, h]

end

theorem decodeRead_ne_ale (m : Space) (a : Byte) (p : Bool) (n : Space) (b : Byte) : decodeRead m a p ≠ .ale n b := by
  cases m with
  | ram => exact Instr.noConfusion
  | io =>
    unfold decodeRead
    simp only
    split_ifs <;> exact Instr.noConfusion

namespace Machine

/-- Only an ALE moves the two latches (R22, R23): the timer's procedures are `TimerOnly`, all else writes neither. -/
theorem exec_keeps_latches {i : Instr} {s t : State} (hi : ∀ m a, i ≠ .ale m a) (h : exec i s = .next t) :
    t.ioModeLatch = s.ioModeLatch ∧ t.addressLatch = s.addressLatch := by
  cases exec_effect h with
  | latched m a => exact absurd rfl (hi m a)
  | stored | answered | flagRead | strobedRead | portA | portB | portC | count | nothing => exact ⟨rfl, rfl⟩
  | command => rw [State.commandWrite_eq]; exact ⟨rfl, rfl⟩
  | commandStop => rw [State.timerStop_eq, State.commandWrite_eq]; exact ⟨rfl, rfl⟩
  | commandStart x d =>
    have ht := (s.commandWrite d).timerStart_only
    rw [ht.ioModeLatch, ht.addressLatch, State.commandWrite_eq]
    exact ⟨rfl, rfl⟩
  | tick => exact ⟨s.clockTick_only.ioModeLatch, s.clockTick_only.addressLatch⟩
  | reset =>
    obtain ⟨-, hspace, haddress, -⟩ := execReset_fields h
    exact ⟨hspace, haddress⟩

/-- Settles O9: the step is the read the latches select (`step_latchedRead`), and a read is no ALE. -/
theorem latchedReadFollowsTheLatches : Obligations.LatchedReadFollowsTheLatches := by
  intro s p rest hr
  have hstep := step_latchedRead hr
  refine ⟨fun hm => ?_, fun hm => ?_, fun t ht => ?_⟩
  · rw [hstep, hm]; rfl
  · have hio : step s = exec (decodeRead .io s.addressLatch p) { s with pending := rest } := by rw [hstep, hm]
    exact ⟨fun h => ⟨_, decodeRead_index0 h ▸ hio⟩, fun h => ⟨_, decodeRead_index1 h ▸ hio⟩,
      fun h => ⟨_, decodeRead_index2 h ▸ hio⟩, fun h => ⟨_, decodeRead_index3 h ▸ hio⟩,
      fun h => ⟨_, decodeRead_index4 h ▸ hio⟩, fun h => ⟨_, decodeRead_index5 h ▸ hio⟩,
      fun h => ⟨_, _, decodeRead_unused h ▸ hio⟩⟩
  · exact exec_keeps_latches (s := { s with pending := rest }) (decodeRead_ne_ale _ _ p) (hstep.symm.trans ht)

end Machine
end Sys2Proof
end

section
/-! O14, O12, O13 (spec/40_bus_protocol.md R104, R100, R103): WR_RAM, ALE and RD_RAM. -/

namespace Sys2Proof.Machine

/-- Settles O14: a byte written is read back and the others stay (`State.memRead_memWrite`); the round trip is a POKE and a
PEEK of one address. -/
theorem wrRamStoresExactlyOneByte : Obligations.WrRamStoresExactlyOneByte := by
  refine ⟨fun a d => decode_writeWord .ram a d, fun s a d hwf => ?_, fun s a d hwf hr => ?_⟩
  · refine ⟨s.memWrite a d, rfl, rfl, ?_, fun b hb => ?_⟩
    · rw [State.memRead_memWrite hwf, if_pos rfl]
    · rw [State.memRead_memWrite hwf, if_neg hb.symm]
  · have hread : (s.memWrite a d).memRead a = d := by rw [State.memRead_memWrite hwf, if_pos rfl]
    refine ⟨_, (run_poke hr 2).trans (run_peek rfl 0), ?_⟩
    exact congrArg (s.returned ++ [·]) hread

/-- Settles O12: the second ALE rewrites both fields the first one wrote. -/
theorem aleStoresSpaceAndAddress : Obligations.AleStoresSpaceAndAddress := by
  intro s m a
  refine ⟨decode_aleWord m a, rfl, fun n b t ht => ?_⟩
  cases ht
  rfl

/-- Settles O13: the read returns the RAM byte and the creation state holds the power-on contents. -/
theorem rdRamReturnsTheByte : Obligations.RdRamReturnsTheByte :=
  ⟨fun _ a p => ⟨decode_readWord .ram a p, rfl⟩, fun a => Memory.read_nil a.toNat, fun _ _ => rfl⟩

end Sys2Proof.Machine
end

section
/-! O16 (spec/40_bus_protocol.md R106): a peek moves only the interface and the mark (`exec_peek`), and the normal read at
the same instant differs from it in STATUS at most (`exec_normalRead`). -/

namespace Sys2Proof.Machine

/-- A byte is returned; at most the draws and the mark move beside it. -/
def AnswersOnly (s t : State) : Prop :=
  ∃ v draws free mark,
    t = { s with returned := s.returned ++ [v], inputDraws := draws, freeDraws := free, unmodelled := mark }

section
variable (s : State)

theorem AnswersOnly.answer (v : Byte) : AnswersOnly s (s.answer v) :=
  ⟨v, s.inputDraws, s.freeDraws, s.unmodelled, rfl⟩

theorem AnswersOnly.mark_answer (v : Byte) : AnswersOnly s (s.mark.answer v) :=
  ⟨v, s.inputDraws, s.freeDraws, true, rfl⟩

theorem AnswersOnly.input_answer (v : Byte) : AnswersOnly s (s.input.2.answer v) := by
  rcases s.input_cases with ⟨_, rest, _, h⟩ | ⟨_, h⟩ <;> rw [h]
  · exact ⟨v, rest, s.freeDraws, s.unmodelled, rfl⟩
  · exact ⟨v, s.inputDraws, s.freeDraws + 1, s.unmodelled, rfl⟩

theorem AnswersOnly.unusedByte_answer (v : Byte) : AnswersOnly s (s.unusedByte.2.answer v) :=
  ⟨v, s.inputDraws, s.freeDraws + 1, s.unmodelled, rfl⟩

/-- The chip keeps its state, and no event is emitted. -/
theorem AnswersOnly.sameChip_trace {s t : State} (h : AnswersOnly s t) : SameChip s t ∧ t.trace = s.trace := by
  obtain ⟨v, draws, free, mark, rfl⟩ := h
  simp [SameChip]

/-! A port read only answers, whichever mode the port is in. -/

theorem execRdPa_answersOnly (p : Bool) : ∃ t, execRdPa p s = .next t ∧ AnswersOnly s t := by
  unfold execRdPa
  split
  · exact ⟨_, rfl, .answer s _⟩
  all_goals exact ⟨_, rfl, .input_answer s _⟩

theorem execRdPb_answersOnly (p : Bool) : ∃ t, execRdPb p s = .next t ∧ AnswersOnly s t := by
  unfold execRdPb
  split
  · exact ⟨_, rfl, .answer s _⟩
  all_goals exact ⟨_, rfl, .input_answer s _⟩

theorem execRdPc_answersOnly (p : Bool) : ∃ t, execRdPc p s = .next t ∧ AnswersOnly s t := by
  unfold execRdPc
  split
  · exact ⟨_, rfl, .input_answer s _⟩
  · exact ⟨_, rfl, .answer s _⟩
  · exact ⟨_, rfl, .mark_answer s _⟩

/-- A peek in either space only answers. -/
theorem exec_peek (m : Space) (a : Byte) : ∃ t, exec (decodeRead m a true) s = .next t ∧ AnswersOnly s t := by
  cases m with
  | ram => exact ⟨_, rfl, .answer s _⟩
  | io =>
    unfold decodeRead
    simp only
    split_ifs
    · exact ⟨_, rfl, .answer s _⟩
    · exact execRdPa_answersOnly s true
    · exact execRdPb_answersOnly s true
    · exact execRdPc_answersOnly s true
    · exact ⟨_, rfl, .answer s _⟩
    · exact ⟨_, rfl, .answer s _⟩
    · exact ⟨_, rfl, .unusedByte_answer s _⟩

end

/-- The normal read does what the peek does, but for STATUS: only a status read looks at the peek flag (R125). -/
theorem exec_normalRead {m : Space} {a : Byte} {s t : State} (h : exec (decodeRead m a true) s = .next t) :
    ∃ v, exec (decodeRead m a false) s = .next { t with status := v } := by
  cases m with
  | ram => exact ⟨t.status, h⟩
  | io =>
    by_cases h0 : ioIndex a = 0#3
    · rw [decodeRead_index0 h0] at h ⊢
      cases h
      exact ⟨clearTimerFlag s.status, rfl⟩
    · refine ⟨t.status, ?_⟩
      rw [← h]
      simp only [decodeRead, h0, if_false]
      split_ifs <;> rfl

/-- Settles O16: `exec_peek`, and `exec_normalRead` for the read it is compared with. -/
theorem peekChangesNoChipState : Obligations.PeekChangesNoChipState := by
  intro m a s
  obtain ⟨t, hpeek, honly⟩ := exec_peek s m a
  obtain ⟨v, hread⟩ := exec_normalRead hpeek
  obtain ⟨hchip, htrace⟩ := honly.sameChip_trace
  exact ⟨t, { t with status := v }, hpeek, hread, hchip, rfl, rfl, rfl, htrace, rfl⟩

end Sys2Proof.Machine
end

section
/-! O23 (spec/41_command_status.md R125): the status read, by its descriptor, and what it does to the flag. -/

namespace Sys2Proof

/-- The read descriptor of an I/O register, its address written as ignored bits and index (R73, R76). -/
theorem readWord_io_append (x : BitVec 5) (n : BitVec 3) (p : Bool) :
    readWord .io (x ++ n) p = 0b01#2 ++ 0b1#1 ++ x ++ n ++ 0#7 ++ BitVec.ofBool p :=
  congrArg (· ++ 0#7 ++ BitVec.ofBool p) (BitVec.append_assoc (x₁ := 0b01#2 ++ 0b1#1) (x₂ := x) (x₃ := n)).symm

/-- A read descriptor of index 0 is RD_STATUS (R91). -/
theorem decode_statusRead (x : BitVec 5) (p : Bool) :
    decode (readWord .io (x ++ 0b000#3) p) = .ok (.rdStatus x p) := by
  rw [decode_readWord, decodeRead_index0 (ioIndex_append x _), ignoredBits_append]

namespace Machine

/-- The register holds nothing but the flag (R43 (e)). -/
theorem State.Inv.status_bit_eq_false {s : State} (h : s.Inv) {k : Nat} (hk : k ≠ 6) : s.status.getLsbD k = false := by
  have hclear : clearTimerFlag s.status = 0#8 := h.status
  have hbit := getLsbD_clearTimerFlag s.status k
  simpa [hclear, hk] using hbit

/-- A terminal-count event sets the flag, whatever the mode (R185). -/
theorem State.tcEvent_sets_timerFlag (s : State) : s.tcEvent.status.getLsbD 6 = true := by
  rw [State.tcEvent_eq, getLsbD_setTimerFlag]
  simp

/-- Settles O23: the peek answers alone, and the normal read then clears bit 6 and no other (`getLsbD_clearTimerFlag`). -/
theorem statusReadClearsTheFlag : Obligations.StatusReadClearsTheFlag := by
  intro s x
  refine ⟨fun p => ?_, fun h k hk => h.status_bit_eq_false hk, s.tcEvent_sets_timerFlag, rfl, ?_⟩
  · rw [← readWord_io_append, decode_statusRead]
  · refine ⟨{ s.answer s.status with status := clearTimerFlag s.status }, rfl, rfl, ?_, fun k hk => ?_⟩
    · exact (getLsbD_clearTimerFlag s.status 6).trans (by simp)
    · exact (getLsbD_clearTimerFlag s.status k).trans (by simp [hk])

end Machine
end Sys2Proof
end

section
/-! O34 (spec/43_timer_registers.md R163 to R165): the count-register writes, by their descriptors; each replaces one byte of
`count_length`, and nothing reads that field before the next `TimerReload`. -/

namespace Sys2Proof

/-! ### The descriptors (R74, R76) -/

/-- The write descriptor of an I/O register, its address written as ignored bits and index. -/
theorem writeWord_io_append (x : BitVec 5) (n : BitVec 3) (d : Byte) :
    writeWord .io (x ++ n) d = 0b10#2 ++ 0b1#1 ++ x ++ n ++ d :=
  congrArg (· ++ d) (BitVec.append_assoc (x₁ := 0b10#2 ++ 0b1#1) (x₂ := x) (x₃ := n)).symm

/-- A write descriptor of index 4 is WR_TMRL (R91). -/
theorem decode_tmrlWrite (x : BitVec 5) (d : Byte) : decode (writeWord .io (x ++ 0b100#3) d) = .ok (.wrTmrl x d) := by
  rw [decode_writeWord]
  simp [decodeWrite]

/-- A write descriptor of index 5 is WR_TMRH (R91). -/
theorem decode_tmrhWrite (x : BitVec 5) (d : Byte) : decode (writeWord .io (x ++ 0b101#3) d) = .ok (.wrTmrh x d) := by
  rw [decode_writeWord]
  simp [decodeWrite]

namespace Machine

/-! ### The two bytes of a count register (R81, R82) -/

section
variable (c : CountReg) (d : Byte)

theorem withLowByte_low : (withLowByte c d).extractLsb' 0 8 = d :=
  BitVec.extractLsb'_append_eq_right

theorem withLowByte_high : (withLowByte c d).extractLsb' 8 8 = c.extractLsb' 8 8 :=
  BitVec.extractLsb'_append_eq_left

theorem withHighByte_high : (withHighByte c d).extractLsb' 8 8 = d :=
  BitVec.extractLsb'_append_eq_left

theorem withHighByte_low : (withHighByte c d).extractLsb' 0 8 = c.extractLsb' 0 8 :=
  BitVec.extractLsb'_append_eq_right

end

/-! ### When the programmed length is used (R165) -/

/-- The live count is computed from `count_loaded`, never from the programmed length. -/
theorem State.liveCount_withCountLength (s : State) (c : CountReg) :
    ({ s with countLength := c } : State).liveCount = s.liveCount := rfl

/-- With no half-period event armed, a reload leaves the programmed value in `count_loaded`, whether it starts a period or
stops at a length below 2 (R181). -/
theorem State.timerReload_countLoaded {s : State} (hh : s.halfEvt = none) : s.timerReload.countLoaded = s.countLength := by
  rcases Nat.lt_or_ge (lengthOf s.countLength).toNat 2 with hshort | hlong
  · rw [State.timerReload_short hh hshort]
  · rw [State.timerReload_long hlong]

/-- Settles O34: each write replaces its byte, and `State.timerReload_countLoaded` says when the value is used. -/
theorem countWritesTouchOnlyTheProgrammedLength : Obligations.CountWritesTouchOnlyTheProgrammedLength := by
  intro s x d
  refine ⟨?_, ?_, ?wrTmrl, ?wrTmrh⟩
  · rw [← writeWord_io_append, decode_tmrlWrite]
  · rw [← writeWord_io_append, decode_tmrhWrite]
  case wrTmrl =>
    exact ⟨_, rfl, rfl, withLowByte_low s.countLength d, withLowByte_high s.countLength d,
      s.liveCount_withCountLength _, fun hh => State.timerReload_countLoaded hh⟩
  case wrTmrh =>
    exact ⟨_, rfl, rfl, withHighByte_high s.countLength d, withHighByte_low s.countLength d,
      s.liveCount_withCountLength _, fun hh => State.timerReload_countLoaded hh⟩

end Machine
end Sys2Proof
end

section
/-! O35 (spec/44_timer_engine.md R180): driving TO, by whether the level driven is the one held. -/

namespace Sys2Proof.Machine

section
variable {s : State} {l : Bool}

/-- TO is never driven redundantly. -/
theorem State.setTO_of_toLevel_eq (h : s.toLevel = l) : s.setTO l = s :=
  if_pos h

/-- A change of level is one event. -/
theorem State.setTO_of_toLevel_ne (h : s.toLevel ≠ l) :
    s.setTO l = { s with toLevel := l, trace := s.trace ++ [.toPin l] } := by
  rw [State.setTO_eq, if_neg h]

end

/-- Settles O35: the two cases of `State.setTO`. -/
theorem drivingToEmitsOnlyChanges : Obligations.DrivingToEmitsOnlyChanges :=
  fun _ _ => ⟨State.setTO_of_toLevel_eq, State.setTO_of_toLevel_ne⟩

end Sys2Proof.Machine
end

section
/-! O50 (spec/60_exceptions.md R210): every operation answers, and the two conditions the source calls error-like have their
defined results. -/

namespace Sys2Proof.Machine

section
variable (s : State)

/-! A port write answers, whichever mode the port is in. -/

theorem execWrPa_next (d : Byte) : ∃ t, execWrPa d s = .next t := by
  unfold execWrPa
  split <;> exact ⟨_, rfl⟩

theorem execWrPb_next (d : Byte) : ∃ t, execWrPb d s = .next t := by
  unfold execWrPb
  split <;> exact ⟨_, rfl⟩

theorem execWrPc_next (d : Byte) : ∃ t, execWrPc d s = .next t := by
  unfold execWrPc
  split <;> exact ⟨_, rfl⟩

/-- Only the port operations choose by the state; every other arm is a next state as it stands. -/
theorem exec_next (i : Instr) : ∃ t, exec i s = .next t := by
  cases i with
  | rdPa x p => exact (execRdPa_answersOnly s p).imp fun _ => And.left
  | rdPb x p => exact (execRdPb_answersOnly s p).imp fun _ => And.left
  | rdPc x p => exact (execRdPc_answersOnly s p).imp fun _ => And.left
  | wrPa x d => exact execWrPa_next s d
  | wrPb x d => exact execWrPb_next s d
  | wrPc x d => exact execWrPc_next s d
  | ale | rdRam | wrRam | rdStatus | wrCmdNop | wrCmdStop | wrCmdStoptc | wrCmdStart | rdTmrl | wrTmrl | rdTmrh | wrTmrh
  | rdUnused | wrUnused | tick | reset => exact ⟨_, rfl⟩

end

section
variable {s : State}

/-- Port C read in a strobed mode: the source's 0 with bits 7:6 forced, and the mark (R145). -/
theorem execRdPc_strobed (h : modeC s.command = .strobed) (p : Bool) :
    execRdPc p s = .next (s.mark.answer 0xC0#8) := by
  unfold execRdPc
  rw [h]
  rfl

/-- START on a stopped timer is a reload (R124). -/
theorem State.timerStart_stopped (h : s.halfEvt = none) : s.timerStart = s.timerReload := by
  rw [State.timerStart, h]

/-- START with a length below 2 leaves the timer stopped, whatever COMMAND byte it comes with (R181, R190). -/
theorem State.timerStart_commandWrite_short (hstopped : s.halfEvt = none) (hshort : (lengthOf s.countLength).toNat < 2)
    (d : Byte) : (s.commandWrite d).timerStart.halfEvt = none ∧ (s.commandWrite d).timerStart.tcEvt = none ∧
      (s.commandWrite d).timerStart.toLevel = true := by
  have hstopped' : (s.commandWrite d).halfEvt = none := by rw [State.commandWrite_eq]; exact hstopped
  have hshort' : (lengthOf (s.commandWrite d).countLength).toNat < 2 := by rw [State.commandWrite_eq]; exact hshort
  rw [State.timerStart_stopped hstopped', State.timerReload_short hstopped' hshort']
  exact ⟨hstopped', rfl, rfl⟩

end

/-- Settles O50: totality is `exec_next`, no fault exists, and the two error-like conditions have a lemma each. -/
theorem everyOperationIsTotal : Obligations.EveryOperationIsTotal := by
  refine ⟨fun i s => exec_next s i, nofun, fun s x p hstrobed => ?portCRead, fun s x d hstopped hshort => ?start⟩
  case portCRead => exact ⟨_, execRdPc_strobed ((modeC_strobed_iff s.command).mpr hstrobed) p, rfl⟩
  case start => exact ⟨_, rfl, State.timerStart_commandWrite_short hstopped hshort d⟩

end Sys2Proof.Machine
end

section
/-! O58 (spec/60_exceptions.md R219): a system's step is the step of one chip, put back in that chip's place. -/

namespace Sys2Proof.Machine

/-- What a system's step can do: nothing where no chip is, else that chip's own step. -/
theorem System.stepChip_cases {sys sys' : System} {n : Nat} (h : sys.stepChip n = .next sys') :
    (sys[n]? = none ∧ sys' = sys) ∨ ∃ s t, sys[n]? = some s ∧ step s = .next t ∧ sys' = sys.set n t := by
  unfold System.stepChip at h
  cases hchip : sys[n]? with
  | none =>
    rw [hchip] at h
    cases h
    exact .inl ⟨rfl, rfl⟩
  | some s =>
    rw [hchip] at h
    cases hstep : step s with
    | next t =>
      simp only [hstep] at h
      cases h
      exact .inr ⟨s, t, rfl, hstep, rfl⟩
    | fault r => nomatch r
    | refused r => simp [hstep] at h

/-- Settles O58: the two cases of `System.stepChip_cases`. -/
theorem chipsAreIndependent : Obligations.ChipsAreIndependent := by
  intro sys sys' n h
  obtain ⟨hnone, rfl⟩ | ⟨s, t, hchip, hstep, rfl⟩ := System.stepChip_cases h
  · refine ⟨fun _ _ => rfl, fun s hs => ?_⟩
    rw [hnone] at hs
    cases hs
  · refine ⟨fun k hk => List.getElem?_set_ne hk.symm, fun u hu => ?_⟩
    obtain rfl : s = u := Option.some.inj (hchip.symm.trans hu)
    have hlt : n < sys.length := (List.getElem?_eq_some_iff.mp hchip).1
    exact ⟨t, hstep, List.getElem?_set_self hlt⟩

end Sys2Proof.Machine
end

section
/-! O46 (spec/70_reset_and_hazards.md R230): the creation state, field by field. -/

namespace Sys2Proof.Machine

/-- `P_POWERON_RAM` = zero: no byte is listed, so every address reads blank (R21). -/
theorem State.reset_memRead (a : Byte) : State.reset.memRead a = 0x00#8 :=
  Memory.read_nil a.toNat

/-- The creation states differ in their RAM alone (R230, D16). -/
theorem State.created_eq_reset_withRam (m : Memory) : State.created m = { State.reset with ram := m } := rfl

/-- With no half-period event the timer is stopped (R35). -/
theorem State.reset_timerState : State.reset.timerState = .stopped := rfl

/-- Settles O46: RAM reads zero, the timer is stopped, and each other field is the value `State.created` gives it. -/
theorem creationStateIsZero : Obligations.CreationStateIsZero :=
  ⟨State.reset_memRead, rfl, rfl, rfl, rfl, rfl, rfl, rfl, rfl, rfl, rfl, rfl, rfl, rfl, rfl,
    State.reset_timerState, rfl, State.created_eq_reset_withRam⟩

end Sys2Proof.Machine
end

section
/-! O49 (spec/70_reset_and_hazards.md R233): RAM is among the fields a RESET leaves. -/

namespace Sys2Proof.Machine

/-- What RAM reads as depends on the RAM field alone (R52). -/
theorem State.memRead_of_ram_eq {s t : State} (h : t.ram = s.ram) (a : Byte) : t.memRead a = s.memRead a := by
  rw [State.memRead, State.memRead, h]

/-- Settles O49: a RESET answers (`exec_next`) and RAM is among the fields it leaves (`execReset_fields`). -/
theorem resetKeepsRam : Obligations.ResetKeepsRam := by
  intro s
  obtain ⟨t, ht⟩ := exec_next s .reset
  obtain ⟨hram, -⟩ := execReset_fields ht
  exact ⟨t, ht, hram, State.memRead_of_ram_eq hram⟩

end Sys2Proof.Machine
end

section
/-! O1, O2, O5 (spec/30_encoding.md R70 to R76, R91 to R93): the decoder and the encoder are inverse to each other on the
words that are not reserved. -/

namespace Sys2Proof

/-! ### The COMMAND row of a byte (R78) -/

section
variable {x : BitVec 5} {d : Byte}

theorem decodeCommand_nop (h : d.extractLsb' 6 2 = 0b00#2) : decodeCommand x d = .wrCmdNop x d := by
  simp [decodeCommand, h]

theorem decodeCommand_stop (h : d.extractLsb' 6 2 = 0b01#2) : decodeCommand x d = .wrCmdStop x d := by
  simp [decodeCommand, h]

theorem decodeCommand_stoptc (h : d.extractLsb' 6 2 = 0b10#2) : decodeCommand x d = .wrCmdStoptc x d := by
  simp [decodeCommand, h]

theorem decodeCommand_start (h : d.extractLsb' 6 2 = 0b11#2) : decodeCommand x d = .wrCmdStart x d := by
  simp [decodeCommand, h]

end

/-! ### The addresses the encoder makes -/

theorem ioIndex_bit0 (a : Byte) : (ioIndex a).getLsbD 0 = a.getLsbD 0 := by simp [ioIndex]

theorem address_bit0 (x : BitVec 5) (n : BitVec 3) : (x ++ n).getLsbD 0 = n.getLsbD 0 := by
  rw [← ioIndex_append x n, ioIndex_bit0, ioIndex_append]

/-- The index of an unused row: 0b11 and the ignored low bit (R76). -/
def unusedIndex (low : Bool) : BitVec 3 := 0b11#2 ++ BitVec.ofBool low

theorem unusedAddress_eq (x : BitVec 5) (low : Bool) :
    x ++ 0b11#2 ++ BitVec.ofBool low = x ++ unusedIndex low :=
  BitVec.append_assoc

theorem decodeRead_unusedAddress (x : BitVec 5) (low p : Bool) :
    decodeRead .io (x ++ 0b11#2 ++ BitVec.ofBool low) p = .rdUnused x low p := by
  rw [unusedAddress_eq]
  simp only [decodeRead, ioIndex_append, ignoredBits_append, address_bit0]
  cases low <;> rfl

theorem decodeWrite_unusedAddress (x : BitVec 5) (low : Bool) (d : Byte) :
    decodeWrite .io (x ++ 0b11#2 ++ BitVec.ofBool low) d = .wrUnused x low d := by
  rw [unusedAddress_eq]
  simp only [decodeWrite, ioIndex_append, ignoredBits_append, address_bit0]
  cases low <;> rfl

/-- A WR word of index 0 is the COMMAND row of its byte. -/
theorem decode_commandWrite (x : BitVec 5) (d : Byte) :
    decode (writeWord .io (x ++ 0b000#3) d) = .ok (decodeCommand x d) := by
  rw [decode_writeWord]
  simp [decodeWrite]

/-- An RD word decodes to the operation whose row its address selects. -/
theorem decode_encode_read {i : Instr} {m : Space} {a : Byte} {p : Bool} (hw : encode i = readWord m a p)
    (hi : decodeRead m a p = i) : decode (encode i) = .ok i := by
  rw [hw, decode_readWord, hi]

theorem decode_encode_write {i : Instr} {m : Space} {a d : Byte} (hw : encode i = writeWord m a d)
    (hi : decodeWrite m a d = i) : decode (encode i) = .ok i := by
  rw [hw, decode_writeWord, hi]

/-- Settles O1: row by row, what the decoder gives for the word of that row. -/
theorem decodeEncodeRoundTrip : Obligations.DecodeEncodeRoundTrip := by
  intro i hwf
  cases i with
  | ale m a => exact decode_aleWord m a
  | rdRam a p => exact decode_readWord .ram a p
  | wrRam a d => exact decode_writeWord .ram a d
  | wrCmdNop x d => exact (decode_commandWrite x d).trans (congrArg _ (decodeCommand_nop (beq_iff_eq.mp hwf)))
  | wrCmdStop x d => exact (decode_commandWrite x d).trans (congrArg _ (decodeCommand_stop (beq_iff_eq.mp hwf)))
  | wrCmdStoptc x d => exact (decode_commandWrite x d).trans (congrArg _ (decodeCommand_stoptc (beq_iff_eq.mp hwf)))
  | wrCmdStart x d => exact (decode_commandWrite x d).trans (congrArg _ (decodeCommand_start (beq_iff_eq.mp hwf)))
  | rdStatus x p | rdPa x p | rdPb x p | rdPc x p | rdTmrl x p | rdTmrh x p =>
    exact decode_encode_read rfl (by simp [decodeRead])
  | wrPa x d | wrPb x d | wrPc x d | wrTmrl x d | wrTmrh x d => exact decode_encode_write rfl (by simp [decodeWrite])
  | rdUnused x low p => exact decode_encode_read rfl (decodeRead_unusedAddress x low p)
  | wrUnused x low d => exact decode_encode_write rfl (decodeWrite_unusedAddress x low d)
  | tick => decide
  | reset => decide

/-! ### What decodes is an encoding (R91, R93) -/

/-- An index that is none of the six registers is an unused one. -/
theorem unusedIndex_of_notMem :
    ∀ n : BitVec 3, n ∉ [0#3, 1#3, 2#3, 3#3, 4#3, 5#3] → unusedIndex (n.getLsbD 0) = n := by
  decide

section
variable {a : Byte}

theorem ignoredBits_append_of_ioIndex {n : BitVec 3} (h : ioIndex a = n) : ignoredBits a ++ n = a :=
  h ▸ ignoredBits_append_ioIndex a

theorem unusedAddress_of_ioIndex (h : unusedIndex ((ioIndex a).getLsbD 0) = ioIndex a) :
    ignoredBits a ++ 0b11#2 ++ BitVec.ofBool (a.getLsbD 0) = a := by
  rw [ioIndex_bit0] at h
  rw [unusedAddress_eq, h, ignoredBits_append_ioIndex]

end

theorem encode_decodeRead (m : Space) (a : Byte) (p : Bool) : encode (decodeRead m a p) = readWord m a p := by
  cases m with
  | ram => rfl
  | io =>
    unfold decodeRead
    simp only
    split_ifs with h0 h1 h2 h3 h4 h5
    · exact congrArg (readWord .io · p) (ignoredBits_append_of_ioIndex h0)
    · exact congrArg (readWord .io · p) (ignoredBits_append_of_ioIndex h1)
    · exact congrArg (readWord .io · p) (ignoredBits_append_of_ioIndex h2)
    · exact congrArg (readWord .io · p) (ignoredBits_append_of_ioIndex h3)
    · exact congrArg (readWord .io · p) (ignoredBits_append_of_ioIndex h4)
    · exact congrArg (readWord .io · p) (ignoredBits_append_of_ioIndex h5)
    · exact congrArg (readWord .io · p) (unusedAddress_of_ioIndex (unusedIndex_of_notMem _ (by simp [*])))

theorem encode_decodeCommand (x : BitVec 5) (d : Byte) :
    encode (decodeCommand x d) = writeWord .io (x ++ 0b000#3) d := by
  unfold decodeCommand
  split_ifs <;> rfl

theorem encode_decodeWrite (m : Space) (a d : Byte) : encode (decodeWrite m a d) = writeWord m a d := by
  cases m with
  | ram => rfl
  | io =>
    unfold decodeWrite
    simp only
    split_ifs with h0 h1 h2 h3 h4 h5
    · rw [encode_decodeCommand, ignoredBits_append_of_ioIndex h0]
    · exact congrArg (writeWord .io · d) (ignoredBits_append_of_ioIndex h1)
    · exact congrArg (writeWord .io · d) (ignoredBits_append_of_ioIndex h2)
    · exact congrArg (writeWord .io · d) (ignoredBits_append_of_ioIndex h3)
    · exact congrArg (writeWord .io · d) (ignoredBits_append_of_ioIndex h4)
    · exact congrArg (writeWord .io · d) (ignoredBits_append_of_ioIndex h5)
    · exact congrArg (writeWord .io · d) (unusedAddress_of_ioIndex (unusedIndex_of_notMem _ (by simp [*])))

theorem wf_decodeRead (m : Space) (a : Byte) (p : Bool) : (decodeRead m a p).wf = true := by
  cases m with
  | ram => rfl
  | io =>
    unfold decodeRead
    simp only
    split_ifs <;> rfl

/-- The row of a COMMAND byte is the one its bits 7:6 name; a field that is none of the first three is 0b11. -/
theorem wf_decodeCommand (x : BitVec 5) (d : Byte) : (decodeCommand x d).wf = true := by
  have hlast : ∀ v : BitVec 2, v ≠ 0b00#2 → v ≠ 0b01#2 → v ≠ 0b10#2 → v = 0b11#2 := by decide
  unfold decodeCommand
  split_ifs with h0 h1 h2
  · exact beq_iff_eq.mpr h0
  · exact beq_iff_eq.mpr h1
  · exact beq_iff_eq.mpr h2
  · exact beq_iff_eq.mpr (hlast _ h0 h1 h2)

theorem wf_decodeWrite (m : Space) (a d : Byte) : (decodeWrite m a d).wf = true := by
  cases m with
  | ram => rfl
  | io =>
    unfold decodeWrite
    simp only
    split_ifs
    · exact wf_decodeCommand _ d
    all_goals rfl

/-! ### The words that decode (R90, R91) -/

/-- A data byte with no bit above the peek flag. -/
theorem byte_eq_of_high_bits {d : Byte} (h : d.extractLsb' 1 7 = 0#7) : d = 0#7 ++ BitVec.ofBool (d.getLsbD 0) := by
  rw [← h]
  refine BitVec.eq_of_getLsbD_eq fun k hk => ?_
  rw [BitVec.getLsbD_append]
  split
  · simp [show k = 0 by omega]
  · simp [show k - 1 < 7 by omega, show 1 + (k - 1) = k by omega]

/-- A word is its kind and the 17 bits below. -/
theorem kindField_append_low (w : Descriptor) : kindField w ++ w.extractLsb' 0 17 = w := by
  refine BitVec.eq_of_getLsbD_eq fun k hk => ?_
  rw [BitVec.getLsbD_append]
  split
  · simp [*]
  · simp [kindField, show k - 17 < 2 by omega, show 17 + (k - 17) = k by omega]

/-- The fourth kind (R71). -/
theorem kindField_host {w : Descriptor} (h0 : kindField w ≠ 0b00#2) (h1 : kindField w ≠ 0b01#2)
    (h2 : kindField w ≠ 0b10#2) : kindField w = 0b11#2 := by
  revert h0 h1 h2
  generalize kindField w = k
  revert k
  decide

/-- A HOST word is the sub-operation its low bits name (R75). -/
theorem eq_hostWord_of_low {w : Descriptor} {d : Byte} (hk : kindField w = 0b11#2)
    (hlow : w.extractLsb' 0 17 = 0#1 ++ 0#8 ++ d) : w = hostWord d := by
  rw [← kindField_append_low w, hk, hlow]
  have hassoc := congrArg (· ++ d) (BitVec.append_assoc (x₁ := 0b11#2) (x₂ := 0#1) (x₃ := 0#8))
  exact (hassoc.trans BitVec.append_assoc).symm

/-- What decodes is an ALE, an RD, a WR, TICK or RESET word, and it decodes to what that word names. -/
theorem decode_ok_cases {w : Descriptor} {i : Instr} (h : decode w = .ok i) :
    (∃ m a, w = aleWord m a ∧ i = .ale m a) ∨ (∃ m a p, w = readWord m a p ∧ i = decodeRead m a p) ∨
    (∃ m a d, w = writeWord m a d ∧ i = decodeWrite m a d) ∨ (w = hostWord 0x00#8 ∧ i = .tick) ∨
    (w = hostWord 0x01#8 ∧ i = .reset) := by
  have hw := (descriptorOf_fields w).symm
  unfold decode at h
  split_ifs at h with hale hdata hread hpeek hwrite htick hreset <;> cases h
  · rw [hale, hdata] at hw
    exact .inl ⟨_, _, hw, rfl⟩
  · rw [hread, byte_eq_of_high_bits hpeek, ← readWord_eq] at hw
    exact .inr (.inl ⟨_, _, _, hw, rfl⟩)
  · rw [hwrite] at hw
    exact .inr (.inr (.inl ⟨_, _, _, hw, rfl⟩))
  · exact .inr (.inr (.inr (.inl ⟨eq_hostWord_of_low (kindField_host hale hread hwrite) htick, rfl⟩)))
  · exact .inr (.inr (.inr (.inr ⟨eq_hostWord_of_low (kindField_host hale hread hwrite) hreset, rfl⟩)))

/-- Settles O2: kind by kind, the word is the one its operation encodes to. -/
theorem encodeDecodeRoundTrip : Obligations.EncodeDecodeRoundTrip := by
  intro w i h
  obtain ⟨m, a, rfl, rfl⟩ | ⟨m, a, p, rfl, rfl⟩ | ⟨m, a, d, rfl, rfl⟩ | ⟨rfl, rfl⟩ | ⟨rfl, rfl⟩ := decode_ok_cases h
  · exact ⟨rfl, rfl⟩
  · exact ⟨wf_decodeRead m a p, encode_decodeRead m a p⟩
  · exact ⟨wf_decodeWrite m a d, encode_decodeWrite m a d⟩
  · exact ⟨rfl, rfl⟩
  · exact ⟨rfl, rfl⟩

/-- Settles O5: ten closed words, one kind after the other. -/
theorem sampleWordsDecode : Obligations.SampleWordsDecode := by
  unfold Obligations.SampleWordsDecode
  decide

end Sys2Proof
end

section
/-! O3, O4 (spec/30_encoding.md R90 to R92): the decoder's refusals, and the rows of the opcode table, which exclude each
other. -/

namespace Sys2Proof

/-! ### The reserved descriptors (R90) -/

/-- The bits above the peek flag, as a field of the word or of its data byte. -/
theorem dataField_high_bits (w : Descriptor) : (dataField w).extractLsb' 1 7 = w.extractLsb' 1 7 := by
  refine BitVec.eq_of_getLsbD_eq fun k hk => ?_
  simp [dataField, hk]

/-- The words a class of R90 names. -/
def Reserved.describes : Reserved → Descriptor → Prop
  | .aleData, w => kindField w = 0b00#2 ∧ dataField w ≠ 0x00#8
  | .readData, w => kindField w = 0b01#2 ∧ w.extractLsb' 1 7 ≠ 0#7
  | .host, w => kindField w = 0b11#2 ∧ w.extractLsb' 0 17 ≠ 0#17 ∧ w.extractLsb' 0 17 ≠ 1#17

theorem describes_of_decode_error {w : Descriptor} {e : Reserved} (h : decode w = .error e) : e.describes w := by
  unfold decode at h
  rw [dataField_high_bits] at h
  split_ifs at h with hale hdata hread hpeek hwrite htick hreset <;> cases h
  · exact ⟨hale, hdata⟩
  · exact ⟨hread, hpeek⟩
  · exact ⟨kindField_host hale hread hwrite, htick, hreset⟩

/-- The decoder refuses with a class exactly the words of that class. -/
theorem decode_error_iff {w : Descriptor} {e : Reserved} : decode w = .error e ↔ e.describes w := by
  refine ⟨describes_of_decode_error, fun h => ?_⟩
  cases e with
  | aleData => obtain ⟨hk, hd⟩ := h; simp [decode, hk, hd]
  | readData => obtain ⟨hk, hd⟩ := h; simp [decode, hk, dataField_high_bits, hd]
  | host => obtain ⟨hk, h0, h1⟩ := h; simp [decode, hk, h0, h1]

/-- Settles O3: `decode_error_iff` at each class. -/
theorem reservedDescriptorsExactly : Obligations.ReservedDescriptorsExactly :=
  fun _ => ⟨decode_error_iff, decode_error_iff, decode_error_iff⟩

/-! ### One row for each word (R91, R92) -/

/-- The row with an operation's name covers its encoding. -/
theorem exists_row_covers_encode (i : Instr) : Laws.RowCoversEncoding.Statement i := by
  cases i with
  | ale m a => exact Laws.RowCoversEncoding.ale m a
  | rdRam a p => exact Laws.RowCoversEncoding.rdRam a p
  | wrRam a d => exact Laws.RowCoversEncoding.wrRam a d
  | rdStatus x p => exact Laws.RowCoversEncoding.rdStatus x p
  | wrCmdNop x d => exact Laws.RowCoversEncoding.wrCmdNop x d
  | wrCmdStop x d => exact Laws.RowCoversEncoding.wrCmdStop x d
  | wrCmdStoptc x d => exact Laws.RowCoversEncoding.wrCmdStoptc x d
  | wrCmdStart x d => exact Laws.RowCoversEncoding.wrCmdStart x d
  | rdPa x p => exact Laws.RowCoversEncoding.rdPa x p
  | wrPa x d => exact Laws.RowCoversEncoding.wrPa x d
  | rdPb x p => exact Laws.RowCoversEncoding.rdPb x p
  | wrPb x d => exact Laws.RowCoversEncoding.wrPb x d
  | rdPc x p => exact Laws.RowCoversEncoding.rdPc x p
  | wrPc x d => exact Laws.RowCoversEncoding.wrPc x d
  | rdTmrl x p => exact Laws.RowCoversEncoding.rdTmrl x p
  | wrTmrl x d => exact Laws.RowCoversEncoding.wrTmrl x d
  | rdTmrh x p => exact Laws.RowCoversEncoding.rdTmrh x p
  | wrTmrh x d => exact Laws.RowCoversEncoding.wrTmrh x d
  | rdUnused x low p => exact Laws.RowCoversEncoding.rdUnused x low p
  | wrUnused x low d => exact Laws.RowCoversEncoding.wrUnused x low d
  | tick => exact Laws.RowCoversEncoding.tick
  | reset => exact Laws.RowCoversEncoding.reset

/-- Two rows that cover one word agree on the bits both fix. -/
theorem OpRow.pattern_and_mask_eq {r q : OpRow} {w : Descriptor} (hr : r.covers w = true) (hq : q.covers w = true) :
    r.pattern &&& q.mask = q.pattern &&& r.mask := by
  rw [← beq_iff_eq.mp hr, ← beq_iff_eq.mp hq, BitVec.and_assoc, BitVec.and_assoc, BitVec.and_comm r.mask]

/-- No two rows of the table agree on the bits both fix. -/
theorem opcodeTable_pairwise_exclusive :
    opcodeTable.Pairwise fun r q => r.pattern &&& q.mask ≠ q.pattern &&& r.mask := by
  decide

/-- Of rows that exclude each other, one that covers a word is the only one. -/
theorem filter_covers_eq_singleton {rows : List OpRow} {r : OpRow} {w : Descriptor}
    (hex : rows.Pairwise fun r q => r.pattern &&& q.mask ≠ q.pattern &&& r.mask) (hmem : r ∈ rows)
    (hr : r.covers w = true) : rows.filter (·.covers w) = [r] := by
  induction rows with
  | nil => cases hmem
  | cons q rows ih =>
    obtain ⟨hq, htail⟩ := List.pairwise_cons.mp hex
    rcases List.mem_cons.mp hmem with rfl | hmem
    · rw [List.filter_cons_of_pos (p := fun q : OpRow => q.covers w) hr, List.filter_eq_nil_iff.mpr fun p hp hcov =>
        hq p hp (OpRow.pattern_and_mask_eq hr hcov)]
    · have hqw : ¬ q.covers w = true := fun hcov => hq r hmem (OpRow.pattern_and_mask_eq hcov hr)
      rw [List.filter_cons_of_neg (p := fun q : OpRow => q.covers w) hqw, ih htail hmem]

/-- A row fixes every bit of its mask in the words it covers. -/
theorem OpRow.field_eq {r : OpRow} {w : Descriptor} (hr : r.covers w = true) {i n : Nat}
    (hmask : r.mask.extractLsb' i n = BitVec.allOnes n) : w.extractLsb' i n = r.pattern.extractLsb' i n := by
  rw [← beq_iff_eq.mp hr, BitVec.extractLsb'_and, hmask, BitVec.and_allOnes]

/-- Each row fixes the kind, and with it the bits that R90 asks of that kind: the data byte 0 in an ALE, 0 above the peek
flag in an RD, and one of the two sub-operations in a HOST word. -/
theorem opcodeTable_fixes_reserved_bits : ∀ r ∈ opcodeTable, r.mask.extractLsb' 17 2 = BitVec.allOnes 2 ∧
    (r.pattern.extractLsb' 17 2 = 0b00#2 → r.mask.extractLsb' 0 8 = BitVec.allOnes 8 ∧ r.pattern.extractLsb' 0 8 = 0#8) ∧
    (r.pattern.extractLsb' 17 2 = 0b01#2 → r.mask.extractLsb' 1 7 = BitVec.allOnes 7 ∧ r.pattern.extractLsb' 1 7 = 0#7) ∧
    (r.pattern.extractLsb' 17 2 = 0b11#2 → r.mask.extractLsb' 0 17 = BitVec.allOnes 17 ∧
      (r.pattern.extractLsb' 0 17 = 0#17 ∨ r.pattern.extractLsb' 0 17 = 1#17)) := by
  decide

/-- A word some row covers is not reserved. -/
theorem decode_ne_error_of_covers {r : OpRow} {w : Descriptor} (hmem : r ∈ opcodeTable) (hr : r.covers w = true)
    (e : Reserved) : decode w ≠ .error e := by
  intro h
  obtain ⟨hkind, hale, hread, hhost⟩ := opcodeTable_fixes_reserved_bits r hmem
  have hkw : r.pattern.extractLsb' 17 2 = kindField w := (OpRow.field_eq hr hkind).symm
  rw [hkw] at hale hread hhost
  have hw := decode_error_iff.mp h
  cases e with
  | aleData =>
    obtain ⟨hmask, hpat⟩ := hale hw.1
    exact hw.2 ((OpRow.field_eq hr hmask).trans hpat)
  | readData =>
    obtain ⟨hmask, hpat⟩ := hread hw.1
    exact hw.2 ((OpRow.field_eq hr hmask).trans hpat)
  | host =>
    obtain ⟨hk, h0, h1⟩ := hw
    obtain ⟨hmask, hpat | hpat⟩ := hhost hk
    · exact h0 ((OpRow.field_eq hr hmask).trans hpat)
    · exact h1 ((OpRow.field_eq hr hmask).trans hpat)

/-- Settles O4: the row of the operation covers the word (`exists_row_covers_encode`) and no other does, since the rows
exclude each other; a reserved word has no row. -/
theorem everyDescriptorHasItsOneRow : Obligations.EveryDescriptorHasItsOneRow := by
  intro w
  refine ⟨fun i h => ?_, fun e h => ?_⟩
  · obtain ⟨hwf, hencode⟩ := encodeDecodeRoundTrip w i h
    obtain ⟨r, hmem, hname, hcov⟩ := exists_row_covers_encode i hwf
    rw [hencode] at hcov
    rw [filter_covers_eq_singleton opcodeTable_pairwise_exclusive hmem hcov, List.map_singleton, hname]
  · exact List.filter_eq_nil_iff.mpr fun r hmem hcov => decode_ne_error_of_covers hmem hcov e h

end Sys2Proof
end

section
/-! O7, O8, O10, O11 (spec/20_memory.md R57; spec/30_encoding.md R90; spec/40_bus_protocol.md R102): what a step does with
the oldest request, and the write a space and address select, index by index. -/

namespace Sys2Proof

section
variable {a d : Byte}

theorem decodeWrite_index0 (h : ioIndex a = 0#3) : decodeWrite .io a d = decodeCommand (ignoredBits a) d := by
  simp [decodeWrite, h]

theorem decodeWrite_index1 (h : ioIndex a = 1#3) : decodeWrite .io a d = .wrPa (ignoredBits a) d := by
  simp [decodeWrite, h]

theorem decodeWrite_index2 (h : ioIndex a = 2#3) : decodeWrite .io a d = .wrPb (ignoredBits a) d := by
  simp [decodeWrite, h]

theorem decodeWrite_index3 (h : ioIndex a = 3#3) : decodeWrite .io a d = .wrPc (ignoredBits a) d := by
  simp [decodeWrite, h]

theorem decodeWrite_index4 (h : ioIndex a = 4#3) : decodeWrite .io a d = .wrTmrl (ignoredBits a) d := by
  simp [decodeWrite, h]

theorem decodeWrite_index5 (h : ioIndex a = 5#3) : decodeWrite .io a d = .wrTmrh (ignoredBits a) d := by
  simp [decodeWrite, h]

theorem decodeWrite_unused (h : a.extractLsb' 1 2 = 3#2) :
    decodeWrite .io a d = .wrUnused (ignoredBits a) (a.getLsbD 0) d := by
  rcases ioIndex_of_high_bits h with h | h <;> simp [decodeWrite, h]

end

theorem decodeWrite_ne_ale (m : Space) (a d : Byte) (n : Space) (b : Byte) : decodeWrite m a d ≠ .ale n b := by
  cases m with
  | ram => exact Instr.noConfusion
  | io =>
    unfold decodeWrite decodeCommand
    simp only
    split_ifs <;> exact Instr.noConfusion

namespace Machine

/-- Settles O7, by `step_of_decode`. -/
theorem stepRunsTheDecodedRequest : Obligations.StepRunsTheDecodedRequest :=
  fun _ _ _ _ => step_of_decode

/-- A request that does not decode is refused with its class. -/
theorem step_of_decode_error {s : State} {r : Request} {rest : List Request} {e : Reserved}
    (hr : s.pending = r :: rest) (he : decode (r.descriptor s.ioModeLatch s.addressLatch) = .error e) :
    step s = .refused (.reservedDescriptor e) := by
  simp only [step, State.fetch, hr, he]

theorem step_idle {s : State} (hr : s.pending = []) : step s = .next s := by
  simp only [step, State.fetch, hr]

/-- Settles O8: a step on a refused word and on no word. -/
theorem stepRefusesReservedAndIdles : Obligations.StepRefusesReservedAndIdles :=
  ⟨fun _ _ _ _ hr he => step_of_decode_error hr he, fun _ => step_idle⟩

/-- Settles O10: the step is the write the latches select (`step_latchedWrite`), and a write is no ALE. -/
theorem latchedWriteFollowsTheLatches : Obligations.LatchedWriteFollowsTheLatches := by
  intro s d rest hr
  have hstep := step_latchedWrite hr
  refine ⟨fun hm => ?_, fun hm => ?_, fun t ht => ?_⟩
  · rw [hstep, hm]; rfl
  · have hio : step s = exec (decodeWrite .io s.addressLatch d) { s with pending := rest } := by rw [hstep, hm]
    refine ⟨fun h => ?_, fun h => ⟨_, decodeWrite_index1 h ▸ hio⟩, fun h => ⟨_, decodeWrite_index2 h ▸ hio⟩,
      fun h => ⟨_, decodeWrite_index3 h ▸ hio⟩, fun h => ⟨_, decodeWrite_index4 h ▸ hio⟩,
      fun h => ⟨_, decodeWrite_index5 h ▸ hio⟩, fun h => ⟨_, _, decodeWrite_unused h ▸ hio⟩⟩
    rw [decodeWrite_index0 h] at hio
    exact ⟨fun hd => ⟨_, decodeCommand_nop hd ▸ hio⟩, fun hd => ⟨_, decodeCommand_stop hd ▸ hio⟩,
      fun hd => ⟨_, decodeCommand_stoptc hd ▸ hio⟩, fun hd => ⟨_, decodeCommand_start hd ▸ hio⟩⟩
  · exact exec_keeps_latches (s := { s with pending := rest }) (decodeWrite_ne_ale _ _ d) (hstep.symm.trans ht)

/-- Settles O11, by `exec_keeps_latches`. -/
theorem onlyAleMovesTheLatches : Obligations.OnlyAleMovesTheLatches :=
  fun _ _ _ => exec_keeps_latches

end Machine
end Sys2Proof
end

section
/-! O51, O52, O53 (spec/10_state.md R33, R43): the invariant holds at creation and every step keeps it, and with it TO stays
high while the timer is stopped. Inside a tick an event may be due, so the loop of R187 keeps the weaker `State.MidTick`,
which is the invariant again once nothing is due. -/

namespace Sys2Proof.Machine

/-! ### Masked bytes (R25, R26) -/

theorem clearTimerFlag_masked (v : Byte) : clearTimerFlag v &&& 0xBF#8 = clearTimerFlag v := by
  rw [clearTimerFlag, BitVec.and_assoc, BitVec.and_self]

theorem setTimerFlag_masked (v : Byte) : setTimerFlag v &&& 0xBF#8 = v &&& 0xBF#8 := by
  refine BitVec.eq_of_getLsbD_eq fun k _ => ?_
  have hset := getLsbD_clearTimerFlag (setTimerFlag v) k
  have hold := getLsbD_clearTimerFlag v k
  rw [getLsbD_setTimerFlag] at hset
  unfold clearTimerFlag at hset hold
  rw [hset, hold]
  by_cases hk : k = 6 <;> simp [hk]

theorem portCBits_masked (d : Byte) : portCBits d &&& 0xC0#8 = 0#8 := by
  rw [portCBits, BitVec.and_assoc]
  exact BitVec.and_zero

theorem halfUp_le {l : Nat} (h : l < 16384) : halfUp l ≤ 8192 := by unfold halfUp; omega

theorem halfDown_le {l : Nat} (h : l < 16384) : halfDown l ≤ 8192 := by unfold halfDown; omega

/-! ### Inside a tick -/

/-- `State.Inv` while events may be due: a counter may stand at 0. -/
structure State.MidTick (s : State) : Prop where
  ram : s.ram.wf
  portC : s.latchC &&& 0xC0#8 = 0#8
  status : s.status &&& 0xBF#8 = 0#8
  half : ∀ h, s.halfEvt = some h → h ≤ 8192 ∧ 2 ≤ (lengthOf s.countLoaded).toNat
  tc : ∀ n, s.tcEvt = some n → s.countEvenPhase = true ∧ (∃ h, s.halfEvt = some h ∧ n ≤ h) ∧
    (s.params.tcFlagAllModes = false → tcPulse s.countLoaded = true)
  mark : usesUnspecified s.command = true → s.unmodelled = true

section
variable {s t : State}

/-- With nothing due it is the invariant. -/
theorem State.MidTick.inv (h : s.MidTick) (hdue : s.fireNext = none) : s.Inv := by
  obtain ⟨htc, hhalf⟩ := (State.fireNext_none_iff s).mp hdue
  refine ⟨h.ram, h.portC, h.status, fun n hn => ?_, fun n hn => ?_, h.mark⟩
  · have hpos : n ≠ 0 := fun h0 => hhalf (h0 ▸ hn)
    exact ⟨by omega, h.half n hn⟩
  · have hpos : n ≠ 0 := fun h0 => htc (h0 ▸ hn)
    exact ⟨by omega, h.tc n hn⟩

/-- Counting down from a state that meets the invariant (R186). -/
theorem State.Inv.countDown (h : s.Inv) : s.countDown.MidTick := by
  refine ⟨h.ram, h.portC, h.status, fun n hn => ?_, fun n hn => ?_, h.mark⟩
  · obtain ⟨m, hm, rfl⟩ := Option.map_eq_some_iff.mp hn
    obtain ⟨-, hle, hlen⟩ := h.half m hm
    exact ⟨by omega, hlen⟩
  · obtain ⟨m, hm, rfl⟩ := Option.map_eq_some_iff.mp hn
    obtain ⟨-, heven, ⟨k, hk, hle⟩, hmode⟩ := h.tc m hm
    exact ⟨heven, ⟨k - 1, by simp [State.countDown, hk], by omega⟩, hmode⟩

/-- A pending terminal-count event is due no later than the half-period event. -/
theorem State.MidTick.tcEvt_none_of_halfEvt_zero (h : s.MidTick) (hh : s.halfEvt = some 0) (ht : s.tcEvt ≠ some 0) :
    s.tcEvt = none := by
  cases hn : s.tcEvt with
  | none => rfl
  | some n =>
    obtain ⟨-, ⟨k, hk, hle⟩, -⟩ := h.tc n hn
    obtain rfl : 0 = k := Option.some.inj (hh.symm.trans hk)
    obtain rfl : n = 0 := by omega
    exact absurd hn ht

/-- In the odd half no terminal-count event is pending. -/
theorem State.MidTick.tcEvt_none_of_oddHalf (h : s.MidTick) (hp : s.countEvenPhase = false) : s.tcEvt = none := by
  cases hn : s.tcEvt with
  | none => rfl
  | some n => exact absurd (hp.symm.trans (h.tc n hn).1) Bool.false_ne_true

theorem State.MidTick.tcEvent (h : s.MidTick) : ({ s with tcEvt := none } : State).tcEvent.MidTick := by
  rw [State.tcEvent_eq]
  exact ⟨h.ram, h.portC, (setTimerFlag_masked s.status).trans h.status, h.half, nofun, h.mark⟩

/-- The reload of R181 on a timer with no event pending. -/
theorem State.Inv.timerReload (h : s.Inv) (hh : s.halfEvt = none) : s.timerReload.Inv := by
  rcases Nat.lt_or_ge (lengthOf s.countLength).toNat 2 with hshort | hlong
  · rw [State.timerReload_short hh hshort]
    refine ⟨h.ram, h.portC, h.status, fun n hn => ?_, nofun, h.mark⟩
    cases hh.symm.trans hn
  · have htc : ∀ n, s.tcEvt ≠ some n := fun n hn => by
      obtain ⟨-, -, ⟨k, hk, -⟩, -⟩ := h.tc n hn
      cases hh.symm.trans hk
    rw [State.timerReload_long hlong]
    refine ⟨h.ram, h.portC, h.status, fun n hn => ?_, fun n hn => absurd hn (htc n), h.mark⟩
    cases hn
    exact ⟨halfUp_pos (by omega), halfUp_le (lengthOf_lt _), hlong⟩

theorem State.Inv.timerStop (h : s.Inv) : s.timerStop.Inv := by
  rw [State.timerStop_eq]
  exact ⟨h.ram, h.portC, h.status, nofun, nofun, h.mark⟩

/-- The end of a period, its event disarmed, is a stop or a reload of a timer without events (R184). -/
theorem State.MidTick.evenHalfEnd (h : s.MidTick) (htc : s.tcEvt = none) :
    ({ s with halfEvt := none } : State).evenHalfEnd.Inv := by
  have hidle : ({ ({ s with halfEvt := none } : State).setTO true with countEvenPhase := false } : State).Inv := by
    rw [State.setTO_eq]
    exact ⟨h.ram, h.portC, h.status, nofun, fun n hn => absurd (htc.symm.trans hn) nofun, h.mark⟩
  unfold State.evenHalfEnd
  simp only
  split
  · exact hidle.timerStop
  · exact hidle.timerReload (by rw [State.setTO_eq])

/-- The even half begins with the floor of half the length, its terminal-count event not after its end (R183). -/
theorem State.MidTick.oddHalfEnd (h : s.MidTick) (hh : s.halfEvt = some 0) (htc : s.tcEvt = none) :
    ({ s with halfEvt := none } : State).oddHalfEnd.MidTick := by
  obtain ⟨-, hlen⟩ := h.half 0 hh
  have hle := halfDown_le (lengthOf_lt s.countLoaded)
  cases hp : tcPulse s.countLoaded with
  | true =>
    rw [State.oddHalfEnd_pulse (by exact hp)]
    refine ⟨h.ram, h.portC, h.status, fun n hn => ?_, fun n hn => ?_, h.mark⟩
    · cases hn; exact ⟨hle, hlen⟩
    · cases hn; exact ⟨rfl, ⟨_, rfl, Nat.sub_le _ _⟩, fun _ => hp⟩
  | false =>
    rw [State.oddHalfEnd_square (by exact hp)]
    refine ⟨h.ram, h.portC, h.status, fun n hn => ?_, fun n hn => ?_, h.mark⟩
    · cases hn; exact ⟨hle, hlen⟩
    · cases hall : s.params.tcFlagAllModes with
      | true =>
        simp only [hall, if_true] at hn
        cases hn
        exact ⟨rfl, ⟨_, rfl, Nat.sub_le _ _⟩, nofun⟩
      | false =>
        simp only [hall, Bool.false_eq_true, if_false] at hn
        cases htc.symm.trans hn

theorem State.Inv.midTick (h : s.Inv) : s.MidTick :=
  ⟨h.ram, h.portC, h.status, fun n hn => (h.half n hn).2, fun n hn => (h.tc n hn).2, h.mark⟩

theorem State.MidTick.fireNext (h : s.MidTick) (hf : s.fireNext = some t) : t.MidTick := by
  obtain ⟨-, rfl⟩ | ⟨ht, hh, -, rfl⟩ | ⟨-, hh, hodd, rfl⟩ := State.fireNext_cases hf
  · exact h.tcEvent
  · exact (h.evenHalfEnd (h.tcEvt_none_of_halfEvt_zero hh ht)).midTick
  · exact h.oddHalfEnd hh (h.tcEvt_none_of_oddHalf hodd)

theorem State.Inv.clockTick (h : s.Inv) : s.clockTick.Inv :=
  State.MidTick.inv (State.fireDue_induct (fun _ _ => State.MidTick.fireNext) h.countDown) (fireDue_none_due _)

/-! ### The host's operations -/

theorem State.Inv.commandWrite (h : s.Inv) (d : Byte) : (s.commandWrite d).Inv := by
  rw [State.commandWrite_eq]
  exact ⟨h.ram, h.portC, h.status, h.half, h.tc, fun hd => by simp [hd]⟩

theorem State.Inv.timerStart (h : s.Inv) : s.timerStart.Inv := by
  cases hh : s.halfEvt with
  | none => rw [State.timerStart_stopped hh]; exact h.timerReload hh
  | some n => simpa only [State.timerStart, hh] using h

theorem State.Inv.timerAction (h : s.Inv) (tm : BitVec 2) : (s.timerAction tm).Inv := by
  unfold State.timerAction
  split
  · exact h.timerStop
  · split
    · exact h.timerStart
    · exact h

theorem State.Inv.clearFlag (h : s.Inv) : ({ s with status := clearTimerFlag s.status } : State).Inv :=
  ⟨h.ram, h.portC, (clearTimerFlag_masked s.status).trans h.status, h.half, h.tc, h.mark⟩

theorem State.Inv.execReset (h : s.Inv) (ht : execReset s = .next t) : t.Inv := by
  cases ht
  have hcleared : ({ s with latchA := 0x00#8, latchB := 0x00#8, latchC := 0x00#8 } : State).Inv :=
    ⟨h.ram, BitVec.zero_and, h.status, h.half, h.tc, h.mark⟩
  exact ((hcleared.commandWrite _).timerAction _).clearFlag.timerStop

/-- Every operation keeps the invariant: by its effect. -/
theorem exec_keeps_inv {i : Instr} (h : s.Inv) (ht : exec i s = .next t) : t.Inv := by
  cases exec_effect ht with
  | latched | answered | portA | portB | count => exact ⟨h.ram, h.portC, h.status, h.half, h.tc, h.mark⟩
  | stored a d => exact ⟨Memory.wf_write h.ram a.isLt d, h.portC, h.status, h.half, h.tc, h.mark⟩
  | flagRead => exact ⟨h.ram, h.portC, (clearTimerFlag_masked s.status).trans h.status, h.half, h.tc, h.mark⟩
  | strobedRead => exact ⟨h.ram, h.portC, h.status, h.half, h.tc, fun _ => rfl⟩
  | command _ _ d => exact h.commandWrite d
  | commandStop _ d => exact (h.commandWrite d).timerStop
  | commandStart _ d => exact (h.commandWrite d).timerStart
  | portC _ d => exact ⟨h.ram, portCBits_masked d, h.status, h.half, h.tc, h.mark⟩
  | nothing => exact h
  | tick => exact h.clockTick
  | reset _ hreset => exact h.execReset hreset

/-- What a step can do: nothing, or one operation on the state with the request taken. -/
theorem step_cases (h : step s = .next t) : t = s ∨ ∃ i rest, exec i { s with pending := rest } = .next t := by
  cases hr : s.pending with
  | nil =>
    rw [step_idle hr] at h
    cases h
    exact .inl rfl
  | cons r rest =>
    cases hd : decode (r.descriptor s.ioModeLatch s.addressLatch) with
    | error e => rw [step_of_decode_error hr hd] at h; cases h
    | ok i => rw [step_of_decode hr hd] at h; exact .inr ⟨i, rest, h⟩

theorem State.Inv.withPending (h : s.Inv) (rest : List Request) : ({ s with pending := rest } : State).Inv :=
  ⟨h.ram, h.portC, h.status, h.half, h.tc, h.mark⟩

end

/-- Settles O52: a step is one operation (`step_cases`), and each keeps the invariant (`exec_keeps_inv`). -/
theorem stepKeepsInvariant : Obligations.StepKeepsInvariant := by
  intro s t h ht
  obtain rfl | ⟨i, rest, hexec⟩ := step_cases ht
  · exact h
  · exact exec_keeps_inv (h.withPending rest) hexec

/-- Settles O51: RAM is empty, no event is pending, and the registers are 0. -/
theorem creationMeetsTheInvariant : Obligations.CreationMeetsTheInvariant :=
  ⟨Memory.wf_nil, rfl, rfl, nofun, nofun, nofun⟩

/-! ### TO while stopped (R43 (c)) -/

section
variable {s t : State}

theorem State.highWhenStopped_timerStop (s : State) : s.timerStop.HighWhenStopped := by
  rw [State.timerStop_eq]
  exact fun _ => rfl

theorem State.highWhenStopped_timerReload (s : State) : s.timerReload.HighWhenStopped := by
  unfold State.timerReload
  simp only
  split
  · exact State.highWhenStopped_timerStop _
  · rw [State.setTO_eq]
    exact fun _ => rfl

/-- START from any state: a running timer is not stopped, a stopped one reloads. -/
theorem State.highWhenStopped_timerStart (s : State) : s.timerStart.HighWhenStopped := by
  cases hh : s.halfEvt with
  | none => rw [State.timerStart_stopped hh]; exact s.highWhenStopped_timerReload
  | some n =>
    simp only [State.timerStart, hh]
    exact fun hstopped => nomatch hh.symm.trans hstopped

/-- After a firing: only the terminal-count event can leave TO low, and then the half-period event is still pending. -/
theorem State.MidTick.highWhenStopped_of_fireNext (hmid : s.MidTick) (hf : s.fireNext = some t) :
    t.HighWhenStopped := by
  obtain ⟨ht, rfl⟩ | ⟨-, -, -, rfl⟩ | ⟨-, -, -, rfl⟩ := State.fireNext_cases hf
  · obtain ⟨-, ⟨k, hk, -⟩, -⟩ := hmid.tc 0 ht
    rw [State.tcEvent_eq]
    exact fun hstopped => nomatch hk.symm.trans hstopped
  · unfold State.evenHalfEnd
    simp only
    split
    · exact State.highWhenStopped_timerStop _
    · exact State.highWhenStopped_timerReload _
  · cases hp : tcPulse s.countLoaded with
    | true => rw [State.oddHalfEnd_pulse (by exact hp)]; exact nofun
    | false => rw [State.oddHalfEnd_square (by exact hp)]; exact nofun

theorem State.HighWhenStopped.clockTick (h : s.HighWhenStopped) (hinv : s.Inv) : s.clockTick.HighWhenStopped := by
  have hstart : s.countDown.HighWhenStopped := fun hstopped => h (Option.map_eq_none_iff.mp hstopped)
  have hboth := State.fireDue_induct (P := fun u => u.MidTick ∧ u.HighWhenStopped)
    (fun _ _ hu hf => ⟨hu.1.fireNext hf, hu.1.highWhenStopped_of_fireNext hf⟩) ⟨hinv.countDown, hstart⟩
  exact hboth.2

theorem execReset_highWhenStopped (h : exec .reset s = .next t) : t.HighWhenStopped := by
  cases h
  exact State.highWhenStopped_timerStop _

theorem exec_keeps_highWhenStopped {i : Instr} (hinv : s.Inv) (h : s.HighWhenStopped) (ht : exec i s = .next t) :
    t.HighWhenStopped := by
  cases exec_effect ht with
  | latched | answered | portA | portB | portC | count | stored | flagRead | strobedRead | nothing => exact h
  | command => rw [State.commandWrite_eq]; exact h
  | commandStop => exact State.highWhenStopped_timerStop _
  | commandStart => exact State.highWhenStopped_timerStart _
  | tick => exact h.clockTick hinv
  | reset _ hreset => exact execReset_highWhenStopped hreset

end

/-- Settles O53: every operation keeps it, and the three that stop the timer, or may, establish it. -/
theorem stoppedTimerHoldsToHigh : Obligations.StoppedTimerHoldsToHigh := by
  refine ⟨fun s t hinv h ht => ?_, fun s t => execReset_highWhenStopped, fun s t x d ht => ?_, fun s t x d ht => ?_⟩
  · obtain rfl | ⟨i, rest, hexec⟩ := step_cases ht
    · exact h
    · exact exec_keeps_highWhenStopped (hinv.withPending rest) h hexec
  · cases ht
    exact State.highWhenStopped_timerStop _
  · cases ht
    exact State.highWhenStopped_timerStart _

end Sys2Proof.Machine
end

section
/-! O15, O55, O56 (spec/20_memory.md R59; spec/10_state.md R24 to R28, R34): which operations write RAM, each register and the
mark, read off the operation's effect. -/

namespace Sys2Proof.Machine

/-! ### What COMMAND writes and the timer leave (R120, R180 to R187) -/

/-- RAM, the output latches and the programmed count are the same. -/
structure SameStorage (s t : State) : Prop where
  ram : t.ram = s.ram
  latchA : t.latchA = s.latchA
  latchB : t.latchB = s.latchB
  latchC : t.latchC = s.latchC
  countLength : t.countLength = s.countLength

theorem SameStorage.trans {s t u : State} (h : SameStorage s t) (k : SameStorage t u) : SameStorage s u :=
  ⟨k.ram.trans h.ram, k.latchA.trans h.latchA, k.latchB.trans h.latchB, k.latchC.trans h.latchC,
    k.countLength.trans h.countLength⟩

/-- Where the storage is the same, nothing is to be said of what changes it. -/
theorem SameStorage.frame {s t : State} (h : SameStorage s t) {A B C L : Prop} :
    (t.latchA ≠ s.latchA → A) ∧ (t.latchB ≠ s.latchB → B) ∧ (t.latchC ≠ s.latchC → C) ∧
    (t.countLength ≠ s.countLength → L) :=
  ⟨absurd h.latchA, absurd h.latchB, absurd h.latchC, absurd h.countLength⟩

theorem TimerOnly.sameStorage {s t : State} (h : TimerOnly s t) : SameStorage s t :=
  ⟨h.ram, h.latchA, h.latchB, h.latchC, h.countLength⟩

section
variable (s : State) (d : Byte)

theorem State.commandWrite_sameStorage : SameStorage s (s.commandWrite d) := by
  rw [State.commandWrite_eq]
  exact ⟨rfl, rfl, rfl, rfl, rfl⟩

theorem State.commandStop_sameStorage : SameStorage s (s.commandWrite d).timerStop :=
  (s.commandWrite_sameStorage d).trans (State.timerStop_only _).sameStorage

theorem State.commandStart_sameStorage : SameStorage s (s.commandWrite d).timerStart :=
  (s.commandWrite_sameStorage d).trans (State.timerStart_only _).sameStorage

theorem State.commandWrite_sameTimer : SameTimer s (s.commandWrite d) := by
  rw [State.commandWrite_eq]
  exact ⟨rfl, rfl, rfl, rfl, rfl⟩

theorem State.commandWrite_unmodelled : (s.commandWrite d).unmodelled = (s.unmodelled || usesUnspecified d) := by
  rw [State.commandWrite_eq]

end

/-! ### Field by field, by the operation's effect -/

section
variable {i : Instr} {s t : State}

theorem Effect.ram_of_ne (h : Effect s i t) (hi : ∀ a d, i ≠ .wrRam a d) : t.ram = s.ram := by
  cases h with
  | stored a d => exact absurd rfl (hi a d)
  | command _ _ d => exact (s.commandWrite_sameStorage d).ram
  | commandStop _ d => exact (s.commandStop_sameStorage d).ram
  | commandStart _ d => exact (s.commandStart_sameStorage d).ram
  | tick => exact s.clockTick_only.ram
  | reset _ hreset =>
    obtain ⟨hram, -⟩ := execReset_fields hreset
    exact hram
  | _ => rfl

theorem Effect.command_frame (h : Effect s i t) (hne : t.command ≠ s.command) :
    i = .reset ∨ ∃ x d, i = .wrCmdNop x d ∨ i = .wrCmdStop x d ∨ i = .wrCmdStoptc x d ∨ i = .wrCmdStart x d := by
  cases h with
  | command _ x d hi => exact .inr ⟨x, d, hi.elim .inl (.inr ∘ .inr ∘ .inl)⟩
  | commandStop x d => exact .inr ⟨x, d, .inr (.inl rfl)⟩
  | commandStart x d => exact .inr ⟨x, d, .inr (.inr (.inr rfl))⟩
  | tick => exact absurd s.clockTick_only.command hne
  | reset => exact .inl rfl
  | _ => exact absurd rfl hne

/-- The output latches and the programmed count, each with the operations that write it. -/
theorem Effect.storage_frame (h : Effect s i t) :
    (t.latchA ≠ s.latchA → i = .reset ∨ ∃ x d, i = .wrPa x d) ∧
    (t.latchB ≠ s.latchB → i = .reset ∨ ∃ x d, i = .wrPb x d) ∧
    (t.latchC ≠ s.latchC → i = .reset ∨ ∃ x d, i = .wrPc x d) ∧
    (t.countLength ≠ s.countLength → ∃ x d, i = .wrTmrl x d ∨ i = .wrTmrh x d) := by
  cases h with
  | portA x d => exact ⟨fun _ => .inr ⟨x, d, rfl⟩, absurd rfl, absurd rfl, absurd rfl⟩
  | portB x d => exact ⟨absurd rfl, fun _ => .inr ⟨x, d, rfl⟩, absurd rfl, absurd rfl⟩
  | portC x d => exact ⟨absurd rfl, absurd rfl, fun _ => .inr ⟨x, d, rfl⟩, absurd rfl⟩
  | count _ x d _ hi => exact ⟨absurd rfl, absurd rfl, absurd rfl, fun _ => ⟨x, d, hi⟩⟩
  | command _ _ d => exact (s.commandWrite_sameStorage d).frame
  | commandStop _ d => exact (s.commandStop_sameStorage d).frame
  | commandStart _ d => exact (s.commandStart_sameStorage d).frame
  | tick => exact s.clockTick_only.sameStorage.frame
  | reset _ hreset =>
    obtain ⟨-, -, -, hcount, -⟩ := execReset_fields hreset
    exact ⟨fun _ => .inl rfl, fun _ => .inl rfl, fun _ => .inl rfl, absurd hcount⟩
  | _ => exact ⟨absurd rfl, absurd rfl, absurd rfl, absurd rfl⟩

theorem Effect.timer_frame (h : Effect s i t) (hne : ¬ SameTimer s t) :
    i = .tick ∨ i = .reset ∨ ∃ x d, i = .wrCmdStop x d ∨ i = .wrCmdStart x d := by
  cases h with
  | tick => exact .inl rfl
  | reset => exact .inr (.inl rfl)
  | commandStop x d => exact .inr (.inr ⟨x, d, .inl rfl⟩)
  | commandStart x d => exact .inr (.inr ⟨x, d, .inr rfl⟩)
  | command _ _ d => exact absurd (s.commandWrite_sameTimer d) hne
  | _ => exact absurd ⟨rfl, rfl, rfl, rfl, rfl⟩ hne

/-- The mark after an operation: as it was, or with the COMMAND byte's unspecified features added, or set (R34). -/
theorem Effect.unmodelled_cases (h : Effect s i t) :
    t.unmodelled = s.unmodelled ∨
    (∃ x d, t.unmodelled = (s.unmodelled || usesUnspecified d) ∧
      (i = .wrCmdNop x d ∨ i = .wrCmdStop x d ∨ i = .wrCmdStoptc x d ∨ i = .wrCmdStart x d)) ∨
    (∃ x p, t.unmodelled = true ∧ i = .rdPc x p ∧ modeC s.command = .strobed) ∨
    (t.unmodelled = (s.unmodelled || usesUnspecified (resetCommand s.command)) ∧ i = .reset) := by
  cases h with
  | strobedRead x p hmode => exact .inr (.inr (.inl ⟨x, p, rfl, rfl, hmode⟩))
  | command _ x d hi =>
    exact .inr (.inl ⟨x, d, s.commandWrite_unmodelled d, hi.elim .inl (.inr ∘ .inr ∘ .inl)⟩)
  | commandStop x d =>
    exact .inr (.inl ⟨x, d, (State.timerStop_only _).unmodelled.trans (s.commandWrite_unmodelled d), .inr (.inl rfl)⟩)
  | commandStart x d =>
    exact .inr (.inl ⟨x, d, (State.timerStart_only _).unmodelled.trans (s.commandWrite_unmodelled d),
      .inr (.inr (.inr rfl))⟩)
  | tick => exact .inl s.clockTick_only.unmodelled
  | reset _ hreset =>
    obtain ⟨-, -, -, -, -, -, -, -, -, -, -, -, hmark, -⟩ := execReset_fields hreset
    exact .inr (.inr (.inr ⟨hmark, rfl⟩))
  | _ => exact .inl rfl

end

/-- Settles O15, by `Effect.ram_of_ne`. -/
theorem onlyWrRamStores : Obligations.OnlyWrRamStores :=
  fun _ _ _ hi h => State.memRead_of_ram_eq ((exec_effect h).ram_of_ne hi)

/-- Settles O55: the frames of COMMAND, of the latches and the programmed count, and of the timer. -/
theorem registerFrames : Obligations.RegisterFrames := by
  intro i s t h
  have heffect := exec_effect h
  obtain ⟨hlatchA, hlatchB, hlatchC, hcount⟩ := heffect.storage_frame
  exact ⟨heffect.command_frame, hlatchA, hlatchB, hlatchC, hcount, heffect.timer_frame⟩

/-- Settles O56: of the cases of `Effect.unmodelled_cases` none clears the mark, and what sets it is a feature the source
leaves unspecified; of a COMMAND byte a RESET keeps only the interrupt enables. -/
theorem markIsStickyAndSetOnlyAsSaid : Obligations.MarkIsStickyAndSetOnlyAsSaid := by
  intro i s t h
  obtain hsame | ⟨x, d, hmark, hi⟩ | ⟨x, p, hmark, hi, hmode⟩ | ⟨hmark, hi⟩ := (exec_effect h).unmodelled_cases
  · exact ⟨fun hs => hsame.trans hs, fun hs ht => absurd (hs.symm.trans (hsame.symm.trans ht)) Bool.false_ne_true⟩
  · refine ⟨fun hs => by rw [hmark, hs, Bool.true_or], fun hs ht => .inl ⟨x, d, ?_, hi⟩⟩
    rw [hmark, hs, Bool.false_or] at ht
    exact (usesUnspecified_iff d).mp ht
  · exact ⟨fun _ => hmark, fun _ _ => .inr (.inl ⟨x, p, hi, (modeC_strobed_iff s.command).mp hmode⟩)⟩
  · refine ⟨fun hs => by rw [hmark, hs, Bool.true_or], fun hs ht => .inr (.inr ⟨hi, ?_⟩)⟩
    rw [hmark, hs, Bool.false_or, usesUnspecified_resetCommand] at ht
    exact Bool.or_eq_true_iff.mp ht

end Sys2Proof.Machine
end

section
/-! O17 to O22, O30 (spec/41_command_status.md R120 to R124): the COMMAND writes as exact next states, and the pins after
them. -/

namespace Sys2Proof.Machine

/-! ### The next states -/

section
variable (s : State) (d : Byte)

/-- A COMMAND write without its TM action, its port events by `portFlushes` (R120). -/
theorem State.commandWrite_flushes : s.commandWrite d = { s with
    command := d
    trace := s.trace ++ portFlushes s d
    unmodelled := s.unmodelled || usesUnspecified d } := by
  rw [State.commandWrite_eq, List.append_assoc]
  simp [portFlushes]

/-- STOP (R122). -/
theorem State.commandWrite_timerStop : (s.commandWrite d).timerStop = { s with
    command := d
    trace := s.trace ++ portFlushes s d ++ toChange s.toLevel true
    unmodelled := s.unmodelled || usesUnspecified d
    halfEvt := none
    tcEvt := none
    countLoaded := countReg (modeOf s.countLoaded) s.liveCount
    toLevel := true } := by
  rw [State.commandWrite_flushes, State.timerStop_eq]
  rfl

end

section
variable {s : State} (d : Byte)

/-- START while the timer runs (R124, C9). -/
theorem State.commandWrite_timerStart_running {h : Nat} (hh : s.halfEvt = some h) :
    (s.commandWrite d).timerStart = s.commandWrite d := by
  have hrun : (s.commandWrite d).halfEvt = some h := by rw [State.commandWrite_flushes]; exact hh
  rw [State.timerStart, hrun]

/-- START from Stopped with a length of at least 2 (R124, R181). -/
theorem State.commandWrite_timerStart_long (hh : s.halfEvt = none) (hl : 2 ≤ (lengthOf s.countLength).toNat) :
    (s.commandWrite d).timerStart = { s with
      command := d
      trace := s.trace ++ portFlushes s d ++ toChange s.toLevel true
      unmodelled := s.unmodelled || usesUnspecified d
      countLoaded := s.countLength
      countEvenPhase := false
      halfEvt := some (halfUp (lengthOf s.countLength).toNat)
      toLevel := true } := by
  rw [State.commandWrite_flushes, State.timerStart_stopped (by exact hh), State.timerReload_long (by exact hl)]
  rfl

/-- START from Stopped with a length below 2 (R190). -/
theorem State.commandWrite_timerStart_short (hh : s.halfEvt = none) (hl : (lengthOf s.countLength).toNat < 2) :
    (s.commandWrite d).timerStart = { s with
      command := d
      trace := s.trace ++ portFlushes s d ++ toChange s.toLevel true
      unmodelled := s.unmodelled || usesUnspecified d
      countLoaded := s.countLength
      halfEvt := none
      tcEvt := none
      toLevel := true } := by
  rw [State.commandWrite_flushes, State.timerStart_stopped (by exact hh),
    State.timerReload_short (by exact hh) (by exact hl), hh]
  rfl

end

/-- Settles O17: neither row has a timer action. -/
theorem commandNopAndStopAfterTc : Obligations.CommandNopAndStopAfterTc :=
  fun s _ d => ⟨congrArg _ (s.commandWrite_flushes d), congrArg _ (s.commandWrite_flushes d)⟩

/-- Settles O18, by `State.commandWrite_timerStop`. -/
theorem commandStopHaltsTheTimer : Obligations.CommandStopHaltsTheTimer :=
  fun s _ d => congrArg _ (s.commandWrite_timerStop d)

/-- A COMMAND write of the byte COMMAND holds turns no port to output. -/
theorem portFlushes_of_command_eq {s : State} {d : Byte} (h : s.command = d) : portFlushes s d = [] := by
  subst h
  simp [portFlushes]

/-- A STOP on a stopped timer with TO high, of the byte COMMAND holds and with its mark already made, does nothing. -/
theorem State.commandStop_redundant {s : State} {d : Byte} (hcommand : s.command = d) (hh : s.halfEvt = none)
    (ht : s.tcEvt = none) (hlevel : s.toLevel = true) (hmark : (s.unmodelled || usesUnspecified d) = s.unmodelled) :
    (s.commandWrite d).timerStop = s := by
  rw [State.commandWrite_timerStop, portFlushes_of_command_eq hcommand, State.liveCount_stopped hh,
    countReg_modeOf_lengthOf, hmark, hlevel, List.append_nil]
  cases s
  cases hcommand
  cases hh
  cases ht
  cases hlevel
  simp only [toChange, if_true, List.append_nil]

/-- Settles O19: a STOP leaves a state on which the same STOP is redundant. -/
theorem stopIsIdempotent : Obligations.StopIsIdempotent := by
  intro s t x y d h
  cases h
  refine congrArg Host.Outcome.next (State.commandStop_redundant ?_ ?_ ?_ ?_ ?_)
  all_goals rw [State.commandWrite_timerStop]
  rw [Bool.or_assoc, Bool.or_self]

/-- Settles O20, by `State.commandWrite_timerStart_long`. -/
theorem commandStartFromStopped : Obligations.CommandStartFromStopped :=
  fun _ _ d hh hl => congrArg _ (State.commandWrite_timerStart_long d hh hl)

/-- Settles O21, by `State.commandWrite_timerStart_short`. -/
theorem commandStartWithShortLength : Obligations.CommandStartWithShortLength :=
  fun _ _ d hh hl => congrArg _ (State.commandWrite_timerStart_short d hh hl)

/-- Settles O22: it is the COMMAND write alone. -/
theorem commandStartWhileRunning : Obligations.CommandStartWhileRunning :=
  fun s _ d _ hh => congrArg _ ((State.commandWrite_timerStart_running d hh).trans (s.commandWrite_flushes d))

/-! ### Port modes (R140) -/

section
variable {c : Byte}

theorem modeA_output (h : c.getLsbD 0 = true) : modeA c = .output := if_pos h

theorem modeA_input (h : c.getLsbD 0 = false) : modeA c = .input := by rw [modeA, h, if_neg Bool.false_ne_true]

theorem modeB_output (h : c.getLsbD 1 = true) : modeB c = .output := if_pos h

theorem modeB_input (h : c.getLsbD 1 = false) : modeB c = .input := by rw [modeB, h, if_neg Bool.false_ne_true]

theorem modeC_input (h : c.extractLsb' 2 2 = 0b00#2) : modeC c = .input := if_pos h

theorem modeC_output_iff : modeC c = .output ↔ c.extractLsb' 2 2 = 0b11#2 := by
  unfold modeC portCField
  generalize c.extractLsb' 2 2 = v
  revert v
  decide

end

/-! ### The pins (R36, R37) -/

section
variable {s t : State} {d : Byte} {es : List Event}

theorem State.pinsA_eq (s : State) : s.pinsA = if s.command.getLsbD 0 then .driven s.latchA else .released := by
  unfold State.pinsA
  cases h : s.command.getLsbD 0 with
  | true => rw [modeA_output h]; rfl
  | false => rw [modeA_input h]; rfl

theorem State.pinsB_eq (s : State) : s.pinsB = if s.command.getLsbD 1 then .driven s.latchB else .released := by
  unfold State.pinsB
  cases h : s.command.getLsbD 1 with
  | true => rw [modeB_output h]; rfl
  | false => rw [modeB_input h]; rfl

theorem State.pinsC_output (h : s.command.extractLsb' 2 2 = 0b11#2) :
    s.pinsC = .driven (s.latchC.extractLsb' 0 6) := by
  rw [State.pinsC, modeC_output_iff.mpr h]

theorem State.pinsC_input (h : s.command.extractLsb' 2 2 = 0b00#2) : s.pinsC = .released := by
  rw [State.pinsC, modeC_input h]

theorem portOutC_notMem_portFlushes (s : State) (d v : Byte) : .portOut .C v ∉ portFlushes s d := by
  unfold portFlushes
  split_ifs <;> simp

theorem portOutC_notMem_toChange (old new : Bool) (v : Byte) : .portOut .C v ∉ toChange old new := by
  unfold toChange
  split <;> simp

/-- The port pins after a COMMAND write of the byte `d` follow its modes and the latches, and port C is not flushed. -/
structure CommandPins (s : State) (d : Byte) (t : State) : Prop where
  pinsA : t.pinsA = if d.getLsbD 0 then .driven s.latchA else .released
  pinsB : t.pinsB = if d.getLsbD 1 then .driven s.latchB else .released
  pinsC_output : d.extractLsb' 2 2 = 0b11#2 → t.pinsC = .driven (s.latchC.extractLsb' 0 6)
  pinsC_input : d.extractLsb' 2 2 = 0b00#2 → t.pinsC = .released
  trace : ∃ es, t.trace = s.trace ++ es ∧ ∀ v, .portOut .C v ∉ es

/-- A COMMAND write adds its flushes and a change of TO, keeps the latches, and leaves its byte in COMMAND. -/
theorem commandPins_of_trace {old new : Bool} (hcommand : t.command = d) (hlatches : SameStorage s t)
    (htrace : t.trace = s.trace ++ portFlushes s d ++ toChange old new) : CommandPins s d t := by
  refine ⟨?_, ?_, fun h => ?_, fun h => ?_, portFlushes s d ++ toChange old new, ?_, fun v hv => ?_⟩
  · rw [t.pinsA_eq, hcommand, hlatches.latchA]
  · rw [t.pinsB_eq, hcommand, hlatches.latchB]
  · rw [State.pinsC_output (hcommand ▸ h), hlatches.latchC]
  · exact State.pinsC_input (hcommand ▸ h)
  · rw [htrace, List.append_assoc]
  · exact (List.mem_append.mp hv).elim (portOutC_notMem_portFlushes s d v) (portOutC_notMem_toChange old new v)

theorem State.commandWrite_pins (s : State) (d : Byte) : CommandPins s d (s.commandWrite d) := by
  refine commandPins_of_trace (old := true) (new := true) ?_ (s.commandWrite_sameStorage d) ?_
  · rw [State.commandWrite_flushes]
  · rw [State.commandWrite_flushes]
    exact (List.append_nil _).symm

theorem State.commandStop_pins (s : State) (d : Byte) : CommandPins s d (s.commandWrite d).timerStop := by
  refine commandPins_of_trace (old := s.toLevel) (new := true) ?_ (s.commandStop_sameStorage d) ?_
  · rw [State.commandWrite_timerStop]
  · rw [State.commandWrite_timerStop]

/-- START on a stopped timer: whatever the length, TO ends high with one event if it was low (R124, R181, R190). -/
theorem State.commandStart_stopped (hh : s.halfEvt = none) (d : Byte) :
    (s.commandWrite d).timerStart.command = d ∧ (s.commandWrite d).timerStart.toLevel = true ∧
    (s.commandWrite d).timerStart.trace = s.trace ++ portFlushes s d ++ toChange s.toLevel true := by
  rcases Nat.lt_or_ge (lengthOf s.countLength).toNat 2 with hshort | hlong
  · rw [State.commandWrite_timerStart_short d hh hshort]
    exact ⟨rfl, rfl, rfl⟩
  · rw [State.commandWrite_timerStart_long d hh hlong]
    exact ⟨rfl, rfl, rfl⟩

theorem State.commandStart_pins (s : State) (d : Byte) : CommandPins s d (s.commandWrite d).timerStart := by
  cases hh : s.halfEvt with
  | none =>
    obtain ⟨hcommand, -, htrace⟩ := State.commandStart_stopped hh d
    exact commandPins_of_trace hcommand (s.commandStart_sameStorage d) htrace
  | some n =>
    rw [State.commandWrite_timerStart_running d hh]
    exact s.commandWrite_pins d

theorem State.commandStart_pinTO (s : State) (d : Byte) :
    (s.commandWrite d).timerStart.pinTO = if s.halfEvt = none then true else s.toLevel := by
  cases hh : s.halfEvt with
  | none =>
    obtain ⟨-, hlevel, -⟩ := State.commandStart_stopped hh d
    exact hlevel
  | some n =>
    rw [State.commandWrite_timerStart_running d hh, State.commandWrite_flushes]
    rfl

end

/-- Settles O30: the port pins row by row (`CommandPins`), and TO as the row's timer action drives it. -/
theorem pinsFollowLatchAndMode : Obligations.PinsFollowLatchAndMode := by
  intro i s t x d hi h
  obtain rfl | rfl | rfl | rfl := hi <;> cases h
  · obtain ⟨hA, hB, hCout, hCin, htrace⟩ := s.commandWrite_pins d
    exact ⟨hA, hB, hCout, hCin, htrace, fun _ => by rw [State.commandWrite_flushes]; rfl, nofun, nofun⟩
  · obtain ⟨hA, hB, hCout, hCin, htrace⟩ := s.commandStop_pins d
    exact ⟨hA, hB, hCout, hCin, htrace, nofun, fun _ => by rw [State.commandWrite_timerStop]; rfl, nofun⟩
  · obtain ⟨hA, hB, hCout, hCin, htrace⟩ := s.commandWrite_pins d
    exact ⟨hA, hB, hCout, hCin, htrace, fun _ => by rw [State.commandWrite_flushes]; rfl, nofun, nofun⟩
  · obtain ⟨hA, hB, hCout, hCin, htrace⟩ := s.commandStart_pins d
    exact ⟨hA, hB, hCout, hCin, htrace, nofun, nofun, fun _ => s.commandStart_pinTO d⟩

end Sys2Proof.Machine
end

section
/-! O54 (spec/10_state.md R39; spec/44_timer_engine.md R180): the trace of an operation is followed from level to level. -/

namespace Sys2Proof.Machine

/-- Events are added to the trace, and their TO events lead from the one level to the other. -/
def TraceFollows (s t : State) : Prop :=
  ∃ es, t.trace = s.trace ++ es ∧ replayTO s.toLevel es = some t.toLevel

theorem replayTO_append (l : Bool) (es fs : List Event) :
    replayTO l (es ++ fs) = (replayTO l es).bind (replayTO · fs) := by
  induction es generalizing l with
  | nil => rfl
  | cons e es ih =>
    cases e with
    | portOut p v => exact ih l
    | toPin k =>
      simp only [List.cons_append, replayTO]
      split
      · rfl
      · exact ih k

/-- Port events leave the level. -/
theorem replayTO_of_no_toPin {es : List Event} (h : ∀ l, .toPin l ∉ es) (l : Bool) : replayTO l es = some l := by
  induction es with
  | nil => rfl
  | cons e es ih =>
    cases e with
    | portOut p v => exact ih fun k hk => h k (List.mem_cons_of_mem _ hk)
    | toPin k => exact absurd List.mem_cons_self (h k)

theorem replayTO_toChange (old new : Bool) : replayTO old (toChange old new) = some new := by
  cases old <;> cases new <;> rfl

theorem toPin_notMem_portFlushes (s : State) (d : Byte) (l : Bool) : .toPin l ∉ portFlushes s d := by
  unfold portFlushes
  split_ifs <;> simp

section
variable {s t u : State}

theorem TraceFollows.of_eq (htrace : t.trace = s.trace) (hlevel : t.toLevel = s.toLevel) : TraceFollows s t :=
  ⟨[], by rw [htrace, List.append_nil], by rw [hlevel]; rfl⟩

theorem TraceFollows.of_no_toPin {es : List Event} (h : ∀ l, .toPin l ∉ es) (htrace : t.trace = s.trace ++ es)
    (hlevel : t.toLevel = s.toLevel) : TraceFollows s t :=
  ⟨es, htrace, by rw [hlevel, replayTO_of_no_toPin h]⟩

theorem TraceFollows.trans (h : TraceFollows s t) (k : TraceFollows t u) : TraceFollows s u := by
  obtain ⟨es, htrace, hlevel⟩ := h
  obtain ⟨fs, ktrace, klevel⟩ := k
  refine ⟨es ++ fs, by rw [ktrace, htrace, List.append_assoc], ?_⟩
  rw [replayTO_append, hlevel, Option.bind_some, klevel]

/-- `SetTO`, from any state that agrees with its argument on TO and the trace. -/
theorem State.setTO_traceFollows (s : State) (l : Bool) : TraceFollows s (s.setTO l) := by
  rw [State.setTO_eq]
  exact ⟨toChange s.toLevel l, rfl, replayTO_toChange s.toLevel l⟩

end

section
variable (s : State)

theorem State.commandWrite_traceFollows (d : Byte) : TraceFollows s (s.commandWrite d) := by
  rw [State.commandWrite_flushes]
  exact .of_no_toPin (toPin_notMem_portFlushes s d) rfl rfl

theorem State.timerStop_traceFollows : TraceFollows s s.timerStop :=
  (TraceFollows.of_eq rfl rfl).trans (State.setTO_traceFollows _ true)

theorem State.timerReload_traceFollows : TraceFollows s s.timerReload := by
  unfold State.timerReload
  simp only
  split
  · exact (TraceFollows.of_eq rfl rfl).trans (State.timerStop_traceFollows _)
  · exact (TraceFollows.of_eq rfl rfl).trans (State.setTO_traceFollows _ true)

theorem State.timerStart_traceFollows : TraceFollows s s.timerStart := by
  unfold State.timerStart
  split
  · exact .of_eq rfl rfl
  · exact s.timerReload_traceFollows

theorem State.timerAction_traceFollows (tm : BitVec 2) : TraceFollows s (s.timerAction tm) := by
  unfold State.timerAction
  split_ifs
  · exact s.timerStop_traceFollows
  · exact s.timerStart_traceFollows
  · exact .of_eq rfl rfl

/-! The timer's events. -/

theorem State.tcEvent_traceFollows : TraceFollows s s.tcEvent := by
  unfold State.tcEvent
  simp only
  split
  · exact (s.setTO_traceFollows false).trans (.of_eq rfl rfl)
  · exact .of_eq rfl rfl

theorem State.evenHalfEnd_traceFollows : TraceFollows s s.evenHalfEnd := by
  have hhigh : TraceFollows s { s.setTO true with countEvenPhase := false } :=
    (s.setTO_traceFollows true).trans (.of_eq rfl rfl)
  unfold State.evenHalfEnd
  simp only
  split
  · exact hhigh.trans (State.timerStop_traceFollows _)
  · exact hhigh.trans (State.timerReload_traceFollows _)

theorem State.armTc_traceFollows : TraceFollows s s.armTc := .of_eq rfl rfl

theorem State.oddHalfEnd_traceFollows : TraceFollows s s.oddHalfEnd := by
  unfold State.oddHalfEnd
  simp only
  split_ifs
  · exact .of_eq rfl rfl
  · refine TraceFollows.trans ?_ (State.armTc_traceFollows _)
    exact (TraceFollows.of_eq rfl rfl).trans (State.setTO_traceFollows _ false)
  · exact (TraceFollows.of_eq rfl rfl).trans (State.setTO_traceFollows _ false)

end

section
variable {s t : State}

theorem State.fireNext_traceFollows (h : s.fireNext = some t) : TraceFollows s t := by
  obtain ⟨-, rfl⟩ | ⟨-, -, -, rfl⟩ | ⟨-, -, -, rfl⟩ := State.fireNext_cases h
  · exact (TraceFollows.of_eq rfl rfl).trans (State.tcEvent_traceFollows _)
  · exact (TraceFollows.of_eq rfl rfl).trans (State.evenHalfEnd_traceFollows _)
  · exact (TraceFollows.of_eq rfl rfl).trans (State.oddHalfEnd_traceFollows _)

theorem State.clockTick_traceFollows (s : State) : TraceFollows s s.clockTick :=
  State.fireDue_induct (P := TraceFollows s) (fun _ _ h hf => h.trans (State.fireNext_traceFollows hf)) (.of_eq rfl rfl)

theorem execReset_traceFollows (h : execReset s = .next t) : TraceFollows s t := by
  cases h
  have hcleared : TraceFollows s { s with latchA := 0x00#8, latchB := 0x00#8, latchC := 0x00#8 } := .of_eq rfl rfl
  refine (hcleared.trans (State.commandWrite_traceFollows _ (resetCommand s.command))).trans ?_
  refine (State.timerAction_traceFollows _ (timerCommand (resetCommand s.command))).trans ?_
  exact (TraceFollows.of_eq rfl rfl).trans (State.timerStop_traceFollows _)

/-- Settles O54: by the operation's effect; a port write adds only port events. -/
theorem traceRecordsEveryToChange : Obligations.TraceRecordsEveryToChange := by
  intro i s t h
  change TraceFollows s t
  cases exec_effect h with
  | portA _ _ _ hes | portB _ _ _ hes | portC _ _ _ hes => exact .of_no_toPin hes rfl rfl
  | command _ _ d => exact s.commandWrite_traceFollows d
  | commandStop _ d => exact (s.commandWrite_traceFollows d).trans (State.timerStop_traceFollows _)
  | commandStart _ d => exact (s.commandWrite_traceFollows d).trans (State.timerStart_traceFollows _)
  | tick => exact s.clockTick_traceFollows
  | reset _ hreset => exact execReset_traceFollows hreset
  | _ => exact .of_eq rfl rfl

end

end Sys2Proof.Machine
end

section
/-! O47, O48 (spec/70_reset_and_hazards.md R231, R232): RESET is the COMMAND byte's timer action and a timer stop, on the
state with the latches cleared and COMMAND rewritten. -/

namespace Sys2Proof.Machine

/-- A state that differs in the timer, STATUS and the trace is given by those fields. -/
theorem TimerOnly.eq {s t : State} (h : TimerOnly s t) : t = { s with
    status := t.status
    countLoaded := t.countLoaded
    countEvenPhase := t.countEvenPhase
    toLevel := t.toLevel
    halfEvt := t.halfEvt
    tcEvt := t.tcEvt
    trace := t.trace } := by
  obtain ⟨h1, h2, h3, h4, h5, h6, h7, h8, h9, h10, h11, h12, h13, h14, h15⟩ := h
  rw [← h1, ← h2, ← h3, ← h4, ← h5, ← h6, ← h7, ← h8, ← h9, ← h10, ← h11, ← h12, ← h13, ← h14, ← h15]

section
variable {s : State}

/-! ### A timer action and then a stop -/

theorem State.timerStop_countLoaded (s : State) :
    s.timerStop.countLoaded = countReg (modeOf s.countLoaded) s.liveCount := by
  rw [State.timerStop_eq]

theorem State.timerStop_countLoaded_stopped (hh : s.halfEvt = none) : s.timerStop.countLoaded = s.countLoaded := by
  rw [State.timerStop_stopped hh]

theorem State.timerStop_halfEvt (s : State) : s.timerStop.halfEvt = none := by
  rw [State.timerStop_eq]

/-- A reload and then a stop: the snapshot of a period that has not ticked is the programmed value (R181, R182). -/
theorem State.timerReload_timerStop_countLoaded (hh : s.halfEvt = none) :
    s.timerReload.timerStop.countLoaded = s.countLength := by
  rcases Nat.lt_or_ge (lengthOf s.countLength).toNat 2 with hshort | hlong
  · rw [State.timerReload_short hh hshort]
    exact State.timerStop_countLoaded_stopped hh
  · rw [State.timerStop_countLoaded, State.timerReload_long hlong, State.liveCount_fresh rfl,
      countReg_modeOf_lengthOf]

section
variable (tm : BitVec 2)

theorem State.timerAction_running {n : Nat} (hh : s.halfEvt = some n) :
    s.timerAction tm = if tm = 0b01#2 then s.timerStop else s := by
  simp only [State.timerAction, State.timerStart, hh, ite_self]

/-- From a running timer: the snapshot, taken by the action or by the stop after it (R182). -/
theorem State.timerAction_timerStop_countLoaded_running {n : Nat} (hh : s.halfEvt = some n) :
    (s.timerAction tm).timerStop.countLoaded = countReg (modeOf s.countLoaded) s.liveCount := by
  rw [State.timerAction_running tm hh]
  split_ifs
  · rw [State.timerStop_countLoaded_stopped s.timerStop_halfEvt, State.timerStop_countLoaded]
  · rw [State.timerStop_countLoaded]

/-- From a stopped timer START takes the programmed value. -/
theorem State.timerAction_timerStop_countLoaded_start (hh : s.halfEvt = none) :
    (s.timerAction 0b11#2).timerStop.countLoaded = s.countLength := by
  have hstart : s.timerAction 0b11#2 = s.timerStart := rfl
  rw [hstart, State.timerStart_stopped hh, State.timerReload_timerStop_countLoaded hh]

variable {tm}

/-- From a stopped timer no other action touches it. -/
theorem State.timerAction_timerStop_countLoaded_stopped (hh : s.halfEvt = none) (htm : tm ≠ 0b11#2) :
    (s.timerAction tm).timerStop.countLoaded = s.countLoaded := by
  rw [State.timerAction, if_neg htm]
  split_ifs
  · rw [State.timerStop_countLoaded_stopped s.timerStop_halfEvt, State.timerStop_countLoaded_stopped hh]
  · exact State.timerStop_countLoaded_stopped hh

end

/-- Of a timer action and a stop, whichever comes first drives TO high, with one event if it was low. -/
theorem State.timerAction_timerStop_trace (s : State) (tm : BitVec 2) :
    (s.timerAction tm).timerStop.trace = s.trace ++ toChange s.toLevel true := by
  have hstop (u : State) : u.timerStop.trace = u.trace ++ toChange u.toLevel true := by rw [State.timerStop_eq]; rfl
  have hagain (u : State) (hlevel : u.toLevel = true) (htrace : u.trace = s.trace ++ toChange s.toLevel true) :
      u.timerStop.trace = s.trace ++ toChange s.toLevel true := by
    rw [hstop, hlevel, htrace]
    exact List.append_nil _
  unfold State.timerAction
  split_ifs
  · exact hagain _ (by rw [State.timerStop_eq]) (hstop s)
  · cases hh : s.halfEvt with
    | some n => simp only [State.timerStart, hh, hstop]
    | none =>
      rw [State.timerStart_stopped hh]
      rcases Nat.lt_or_ge (lengthOf s.countLength).toNat 2 with hshort | hlong
      · rw [State.timerReload_short hh hshort]
        exact hagain _ rfl rfl
      · rw [State.timerReload_long hlong]
        exact hagain _ rfl rfl
  · exact hstop s

/-! ### RESET -/

/-- What a RESET hands to the timer: latches cleared, COMMAND rewritten. -/
def State.resetBase (s : State) : State :=
  { s with command := resetCommand s.command, latchA := 0x00#8, latchB := 0x00#8, latchC := 0x00#8 }

/-- A COMMAND byte a RESET rewrites had its interrupt enables before, so the mark is made already. -/
theorem State.Inv.resetCommand_marked (h : s.Inv) :
    (s.unmodelled || usesUnspecified (resetCommand s.command)) = s.unmodelled := by
  cases hu : usesUnspecified (resetCommand s.command) with
  | false => exact Bool.or_false _
  | true =>
    rw [usesUnspecified_resetCommand, Bool.or_eq_true] at hu
    rw [h.mark ((usesUnspecified_iff s.command).mpr (.inr (.inr hu))), Bool.true_or]

theorem execReset_of_inv (h : s.Inv) : exec .reset s = .next
    { (s.resetBase.timerAction (timerCommand s.command)).timerStop with status := clearTimerFlag s.status } := by
  have hw : ({ s with latchA := 0x00#8, latchB := 0x00#8, latchC := 0x00#8 } : State).commandWrite
      (resetCommand s.command) = s.resetBase := by
    refine (State.commandWrite_resetCommand { s with latchA := 0x00#8, latchB := 0x00#8, latchC := 0x00#8 }).trans ?_
    simp only [h.resetCommand_marked]
    rfl
  unfold exec execReset
  simp only [hw, timerCommand_resetCommand, State.timerAction_status, State.timerStop_eq]
  rfl

theorem State.Inv.clearTimerFlag_status (h : s.Inv) : clearTimerFlag s.status = 0x00#8 := h.status

end

/-- Settles O48: RESET is a timer action and a stop on `State.resetBase`, which move only the timer, STATUS and the trace. -/
theorem stateAfterReset : Obligations.StateAfterReset := by
  intro s h
  have honly := (s.resetBase.timerAction_only (timerCommand s.command)).trans (State.timerStop_only _)
  have htrace := s.resetBase.timerAction_timerStop_trace (timerCommand s.command)
  refine ⟨_, execReset_of_inv h, ?_, fun hrun => ?_, fun hstopped htm => ?_, fun hstopped htm => ?_⟩
  · rw [honly.eq, htrace, h.clearTimerFlag_status]
    simp only [State.timerStop_eq]
    rfl
  · obtain ⟨n, hn⟩ := Option.ne_none_iff_exists'.mp hrun
    exact s.resetBase.timerAction_timerStop_countLoaded_running (timerCommand s.command) hn
  · have hstart : timerCommand s.command = 0b11#2 := htm
    rw [hstart]
    exact s.resetBase.timerAction_timerStop_countLoaded_start hstopped
  · exact s.resetBase.timerAction_timerStop_countLoaded_stopped hstopped htm

/-- Settles O47: from creation a RESET finds every field it writes as it leaves it, but TO. -/
theorem resetFromCreation : Obligations.ResetFromCreation := rfl

end Sys2Proof.Machine
end

section
/-! O25 to O29 (spec/41_command_status.md R126, R127; spec/42_ports.md R141 to R146): the unused indices, and the port reads
and writes by the port's mode. -/

namespace Sys2Proof.Machine

/-- Settles O25: the byte is the chip's free value at its counter. -/
theorem unusedIndicesDoNothing : Obligations.UnusedIndicesDoNothing :=
  fun s _ _ => ⟨fun _ => ⟨Config.freeUnusedRead s.chip s.freeDraws, rfl⟩, fun _ => rfl⟩

section
variable {s : State}

/-! ### What the pins give (R38) -/

theorem State.input_listed {v : Byte} {rest : List Byte} (h : s.inputDraws = v :: rest) :
    s.input = (v, { s with inputDraws := rest }) := by
  rw [State.input, h]

theorem State.input_free (h : s.inputDraws = []) :
    s.input = (Config.freeInput s.chip s.freeDraws, { s with freeDraws := s.freeDraws + 1 }) := by
  rw [State.input, h]

/-! ### Ports A and B -/

theorem execRdPa_output (h : modeA s.command = .output) (p : Bool) : execRdPa p s = .next (s.answer s.latchA) := by
  rw [execRdPa, h]

theorem execRdPa_input (h : modeA s.command = .input) (p : Bool) :
    execRdPa p s = .next (s.input.2.answer s.input.1) := by
  rw [execRdPa, h]

theorem execRdPb_output (h : modeB s.command = .output) (p : Bool) : execRdPb p s = .next (s.answer s.latchB) := by
  rw [execRdPb, h]

theorem execRdPb_input (h : modeB s.command = .input) (p : Bool) :
    execRdPb p s = .next (s.input.2.answer s.input.1) := by
  rw [execRdPb, h]

theorem execWrPa_output (h : modeA s.command = .output) (d : Byte) :
    execWrPa d s = .next { s with latchA := d, trace := s.trace ++ [.portOut .A d] } := by
  rw [execWrPa, h]
  rfl

theorem execWrPa_input (h : modeA s.command = .input) (d : Byte) : execWrPa d s = .next { s with latchA := d } := by
  rw [execWrPa, h]

theorem execWrPb_output (h : modeB s.command = .output) (d : Byte) :
    execWrPb d s = .next { s with latchB := d, trace := s.trace ++ [.portOut .B d] } := by
  rw [execWrPb, h]
  rfl

theorem execWrPb_input (h : modeB s.command = .input) (d : Byte) : execWrPb d s = .next { s with latchB := d } := by
  rw [execWrPb, h]

/-! ### Port C -/

theorem execRdPc_output (h : modeC s.command = .output) (p : Bool) :
    execRdPc p s = .next (s.answer (portCRead s.latchC)) := by
  rw [execRdPc, h]

theorem execRdPc_input (h : modeC s.command = .input) (p : Bool) :
    execRdPc p s = .next (s.input.2.answer (portCRead (portCBits s.input.1))) := by
  rw [execRdPc, h]

theorem execWrPc_output (h : modeC s.command = .output) (d : Byte) :
    execWrPc d s = .next { s with latchC := portCBits d, trace := s.trace ++ [.portOut .C (portCBits d)] } := by
  rw [execWrPc, h]
  rfl

theorem execWrPc_other (h : modeC s.command ≠ .output) (d : Byte) :
    execWrPc d s = .next { s with latchC := portCBits d } := by
  unfold execWrPc
  split
  · contradiction
  · rfl
  · rfl

end

/-- Six bits over two zeros (R146). -/
theorem portCBits_eq_append (d : Byte) : portCBits d = 0b00#2 ++ d.extractLsb' 0 6 := by
  refine BitVec.eq_of_getLsbD_eq fun k hk => ?_
  rw [BitVec.getLsbD_append, portCBits, BitVec.getLsbD_and]
  interval_cases k <;> simp

/-- Six bits under two ones (R145). -/
theorem portCRead_portCBits (v : Byte) : portCRead (portCBits v) = 0b11#2 ++ v.extractLsb' 0 6 := by
  refine BitVec.eq_of_getLsbD_eq fun k hk => ?_
  rw [BitVec.getLsbD_append, portCRead, portCBits, BitVec.getLsbD_or, BitVec.getLsbD_and]
  interval_cases k <;> simp

/-- Settles O26: the latch in output mode, `State.input` in input mode. -/
theorem portAAndBReads : Obligations.PortAAndBReads := by
  intro s x p
  refine ⟨fun h => execRdPa_output (modeA_output h) p, fun h => execRdPb_output (modeB_output h) p,
    fun h => ⟨fun v rest hdraws => ?_, fun hdraws => ⟨Config.freeInput s.chip s.freeDraws, ?_⟩⟩,
    fun h => ⟨fun v rest hdraws => ?_, fun hdraws => ⟨Config.freeInput s.chip s.freeDraws, ?_⟩⟩⟩
  · exact (execRdPa_input (modeA_input h) p).trans (by rw [State.input_listed hdraws]; rfl)
  · exact (execRdPa_input (modeA_input h) p).trans (by rw [State.input_free hdraws]; rfl)
  · exact (execRdPb_input (modeB_input h) p).trans (by rw [State.input_listed hdraws]; rfl)
  · exact (execRdPb_input (modeB_input h) p).trans (by rw [State.input_free hdraws]; rfl)

/-- Settles O27: six bits of the latch or of `State.input`, and the strobed read of `execRdPc_strobed`. -/
theorem portCReadByMode : Obligations.PortCRead := by
  intro s x p
  refine ⟨fun h => execRdPc_output (modeC_output_iff.mpr h) p, fun h => ⟨fun v rest hdraws => ?_, fun hdraws =>
    ⟨(Config.freeInput s.chip s.freeDraws).extractLsb' 0 6, ?_⟩⟩,
    fun h => execRdPc_strobed ((modeC_strobed_iff s.command).mpr h) p⟩
  · refine (execRdPc_input (modeC_input h) p).trans ?_
    rw [State.input_listed hdraws, portCRead_portCBits]
    rfl
  · refine (execRdPc_input (modeC_input h) p).trans ?_
    rw [State.input_free hdraws, portCRead_portCBits]
    rfl

/-- Settles O28, mode by mode. -/
theorem portAAndBWrites : Obligations.PortAAndBWrites :=
  fun _ _ d => ⟨fun h => execWrPa_output (modeA_output h) d, fun h => execWrPa_input (modeA_input h) d,
    fun h => execWrPb_output (modeB_output h) d, fun h => execWrPb_input (modeB_input h) d⟩

/-- Settles O29, mode by mode. -/
theorem portCWrite : Obligations.PortCWrite := by
  intro s x d
  rw [← portCBits_eq_append]
  exact ⟨fun h => execWrPc_output (modeC_output_iff.mpr h) d,
    fun h => execWrPc_other (fun hmode => h (modeC_output_iff.mp hmode)) d⟩

end Sys2Proof.Machine
end

section
/-! O31, O32, O33 (spec/43_timer_registers.md R160 to R162): the live count and its two reads. -/

namespace Sys2Proof.Machine

/-- Settles O31: the two reads answer with bytes of the live count, the mode bits above the upper one. -/
theorem countReads : Obligations.CountReads := fun _ _ _ => ⟨rfl, rfl⟩

/-! A shift leaves bit 0 free, so putting the parity bit there adds it. -/

theorem shiftLeft_one_eq (h : Nat) : h <<< 1 = 2 * h + 0 := by rw [Nat.shiftLeft_eq]; omega

theorem shiftLeft_one_or_one (h : Nat) : (h <<< 1) ||| 1 = 2 * h + 1 := by
  rw [← Nat.shiftLeft_add_eq_or_of_lt (by omega), shiftLeft_one_eq]

section
variable {s : State}

theorem State.parityBit_evenHalf (h : s.countEvenPhase = true) : s.parityBit = 0 := by
  rw [State.parityBit, if_pos h]

theorem State.parityBit_oddHalf (h : s.countEvenPhase = false) : s.parityBit = s.params.oddHalfBit.toNat := by
  rw [State.parityBit, h, if_neg Bool.false_ne_true]

end

/-- Settles O32: `State.liveCount_running` at each value of the parity bit. -/
theorem liveCountValue : Obligations.LiveCountValue := by
  intro s
  refine ⟨State.liveCount_stopped, fun h hh heven => ?_, fun h hh hodd hbit => ?_, fun h hh hodd hbit => ?_⟩
  · rw [State.liveCount_running hh, State.parityBit_evenHalf heven, shiftLeft_one_eq]; rfl
  · rw [State.liveCount_running hh, State.parityBit_oddHalf hodd, hbit, shiftLeft_one_or_one]; rfl
  · rw [State.liveCount_running hh, State.parityBit_oddHalf hodd, hbit, shiftLeft_one_eq]; rfl

/-- Settles O33: a running timer has at least one tick left and a length of at least 2. -/
theorem runningCountIsBounded : Obligations.RunningCountIsBounded := by
  intro s h hinv hh
  obtain ⟨hpos, -, hlen⟩ := hinv.half h hh
  have hcount := State.liveCount_running hh
  change _ ∧ _ ≤ (lengthOf s.countLoaded).toNat
  omega

end Sys2Proof.Machine
end

section
/-! O36 to O43 (spec/44_timer_engine.md R183 to R187): a tick, by what it makes due: nothing, the terminal-count event, the
end of the odd half, the end of the period, or both events at once. -/

namespace Sys2Proof.Machine

section
variable {s : State}

/-! ### Ticks that only count -/

/-- With every counter above 1 a tick only counts (R186). -/
theorem State.clockTick_quiet (hh : ∀ h, s.halfEvt = some h → 1 < h) (ht : ∀ n, s.tcEvt = some n → 1 < n) :
    s.clockTick = s.countDown := by
  refine State.fireUpTo_of_none ((State.fireNext_none_iff _).mpr ⟨fun h0 => ?_, fun h0 => ?_⟩) 4
  · obtain ⟨n, hn, hzero⟩ := Option.map_eq_some_iff.mp h0
    have := ht n hn
    omega
  · obtain ⟨h, hh', hzero⟩ := Option.map_eq_some_iff.mp h0
    have := hh h hh'
    omega

theorem State.clockTick_stopped (hh : s.halfEvt = none) (ht : s.tcEvt = none) : s.clockTick = s := by
  rw [State.clockTick_quiet (by simp [hh]) (by simp [ht])]
  cases s
  cases hh
  cases ht
  rfl

/-- So do `k` ticks with every counter above `k`. -/
theorem State.clockTicks_quiet (k : Nat) (hh : ∀ h, s.halfEvt = some h → k < h) (ht : ∀ n, s.tcEvt = some n → k < n) :
    s.clockTicks k = { s with halfEvt := s.halfEvt.map (· - k), tcEvt := s.tcEvt.map (· - k) } := by
  induction k generalizing s with
  | zero => simp [State.clockTicks]
  | succ k ih =>
    have htick : s.clockTick = s.countDown :=
      State.clockTick_quiet (fun h hh' => by have := hh h hh'; omega) (fun n hn => by have := ht n hn; omega)
    rw [State.clockTicks, htick, ih]
    · simp [State.countDown, Function.comp_def, Nat.sub_sub, Nat.add_comm]
    · intro h hh'
      obtain ⟨m, hm, rfl⟩ := Option.map_eq_some_iff.mp hh'
      have := hh m hm
      omega
    · intro n hn
      obtain ⟨m, hm, rfl⟩ := Option.map_eq_some_iff.mp hn
      have := ht m hm
      omega

/-! ### The end of a period (R184) -/

theorem State.stopsAtTerminalCount_iff :
    s.stopsAtTerminalCount = true ↔ s.countLoaded.getLsbD 14 = false ∨ s.command.extractLsb' 6 2 = 0b10#2 := by
  rw [State.stopsAtTerminalCount, Bool.or_eq_true, Bool.not_eq_true', beq_iff_eq]
  rfl

theorem State.stopsAtTerminalCount_eq_false (hreload : s.countLoaded.getLsbD 14 = true)
    (hcommand : s.command.extractLsb' 6 2 ≠ 0b10#2) : s.stopsAtTerminalCount = false := by
  refine Bool.eq_false_iff.mpr fun hstop => (State.stopsAtTerminalCount_iff.mp hstop).elim (fun h => ?_) hcommand
  cases hreload.symm.trans h

/-- The reload that starts the next period. -/
theorem State.evenHalfEnd_reload_long (h : s.stopsAtTerminalCount = false)
    (hlong : 2 ≤ (lengthOf s.countLength).toNat) : s.evenHalfEnd = { s with
      countLoaded := s.countLength
      countEvenPhase := false
      halfEvt := some (halfUp (lengthOf s.countLength).toNat)
      toLevel := true
      trace := s.trace ++ toChange s.toLevel true } := by
  rw [State.evenHalfEnd_reload h, State.setTO_eq, State.timerReload_long (by exact hlong)]
  simp [toChange]

/-- The reload of a length below 2, which stops the timer. -/
theorem State.evenHalfEnd_reload_short (hh : s.halfEvt = none) (h : s.stopsAtTerminalCount = false)
    (hshort : (lengthOf s.countLength).toNat < 2) : s.evenHalfEnd = { s with
      countLoaded := s.countLength
      countEvenPhase := false
      tcEvt := none
      toLevel := true
      trace := s.trace ++ toChange s.toLevel true } := by
  rw [State.evenHalfEnd_reload h, State.setTO_eq, State.timerReload_short (by exact hh) (by exact hshort)]
  simp [toChange]

/-- After the end of a period nothing is due. -/
theorem State.evenHalfEnd_fireUpTo (hh : s.halfEvt = none) (ht : s.tcEvt ≠ some 0) (n : Nat) :
    s.evenHalfEnd.fireUpTo n = s.evenHalfEnd :=
  State.fireUpTo_of_none (State.fireUpTo_none_due (n := 0) (State.dueWork_evenHalfEnd hh ht).le) n

/-! ### Ticks that fire (R187) -/

theorem State.countDown_running {h : Nat} (hh : s.halfEvt = some (h + 1)) :
    s.countDown = { s with halfEvt := some h, tcEvt := s.tcEvt.map (· - 1) } := by
  rw [State.countDown, hh]
  rfl

theorem State.fireNext_periodEnd (ht : s.tcEvt ≠ some 0) (hh : s.halfEvt = some 0) (heven : s.countEvenPhase = true) :
    s.fireNext = some ({ s with halfEvt := none } : State).evenHalfEnd := by
  rw [State.fireNext, if_neg ht, if_pos hh, if_pos heven]

theorem State.fireNext_tc (ht : s.tcEvt = some 0) : s.fireNext = some ({ s with tcEvt := none } : State).tcEvent := by
  rw [State.fireNext, if_pos ht]

/-- The terminal-count event alone. -/
theorem State.clockTick_tc {h : Nat} (hh : s.halfEvt = some (h + 2)) (ht : s.tcEvt = some 1) :
    s.clockTick = ({ s with halfEvt := some (h + 1), tcEvt := none } : State).tcEvent := by
  rw [State.clockTick, State.countDown_running hh, ht, State.fireDue_of_tc rfl]
  refine State.fireUpTo_of_none ((State.fireNext_none_iff _).mpr ?_) 3
  rw [State.tcEvent_eq]
  exact ⟨nofun, by simp⟩

/-- The end of the period alone. -/
theorem State.clockTick_periodEnd (hh : s.halfEvt = some 1) (ht : s.tcEvt = none) (heven : s.countEvenPhase = true) :
    s.clockTick = ({ s with halfEvt := none, tcEvt := none } : State).evenHalfEnd := by
  rw [State.clockTick, State.countDown_running hh, ht, State.fireDue_of_half (by exact nofun) rfl]
  simp only [heven, if_true]
  exact State.evenHalfEnd_fireUpTo rfl (by exact nofun) 3

/-- Both events of the even half: the terminal-count event first (D22). -/
theorem State.clockTick_tc_periodEnd (hh : s.halfEvt = some 1) (ht : s.tcEvt = some 1)
    (heven : s.countEvenPhase = true) :
    s.clockTick = ({ s with halfEvt := none, tcEvt := none } : State).tcEvent.evenHalfEnd := by
  have hnext : ({ s with halfEvt := some 0, tcEvt := none } : State).tcEvent.fireNext =
      some ({ s with halfEvt := none, tcEvt := none } : State).tcEvent.evenHalfEnd := by
    rw [State.tcEvent_eq, State.tcEvent_eq]
    exact State.fireNext_periodEnd (by exact nofun) rfl heven
  rw [State.clockTick, State.countDown_running hh, ht, State.fireDue_of_tc rfl]
  refine (State.fireUpTo_of_some hnext 2).trans (State.evenHalfEnd_fireUpTo ?_ ?_ 2)
  · rw [State.tcEvent_eq]
  · rw [State.tcEvent_eq]
    exact nofun

/-! ### The end of the odd half (R183), and the event it may make due at once -/

/-- The end of the odd half in a mode that arms the terminal-count event: a square-wave mode drives TO low as well. -/
theorem State.oddHalfEnd_arms (hmode : tcPulse s.countLoaded = true ∨ s.params.tcFlagAllModes = true) :
    s.oddHalfEnd = { s with
      halfEvt := some (halfDown (lengthOf s.countLoaded).toNat)
      tcEvt := some (halfDown (lengthOf s.countLoaded).toNat - s.params.tcLead)
      countEvenPhase := true
      toLevel := if tcPulse s.countLoaded then s.toLevel else false
      trace := s.trace ++ (if tcPulse s.countLoaded then [] else toChange s.toLevel false) } := by
  cases hp : tcPulse s.countLoaded with
  | true => rw [State.oddHalfEnd_pulse hp]; simp
  | false =>
    have hall : s.params.tcFlagAllModes = true := hmode.resolve_left (by rw [hp]; exact Bool.false_ne_true)
    rw [State.oddHalfEnd_square hp]
    simp [hall, toChange]

section
variable (hh : s.halfEvt = some 1) (ht : s.tcEvt = none) (hodd : s.countEvenPhase = false)
include hh ht hodd

theorem State.clockTick_oddHalfEnd :
    s.clockTick = ({ s with halfEvt := none, tcEvt := none } : State).oddHalfEnd.fireUpTo 3 := by
  rw [State.clockTick, State.countDown_running hh, ht, State.fireDue_of_half (by exact nofun) rfl]
  simp only [hodd, Bool.false_eq_true, if_false]
  rfl

variable (hlen : 2 ≤ (lengthOf s.countLoaded).toNat)
include hlen

/-- A square-wave mode that arms no terminal-count event. -/
theorem State.clockTick_oddHalfEnd_square (hmode : tcPulse s.countLoaded = false)
    (hall : s.params.tcFlagAllModes = false) : s.clockTick = { s with
      halfEvt := some (halfDown (lengthOf s.countLoaded).toNat)
      tcEvt := none
      countEvenPhase := true
      toLevel := false
      trace := s.trace ++ toChange s.toLevel false } := by
  have hhalf := halfDown_pos hlen
  rw [State.clockTick_oddHalfEnd hh ht hodd, State.oddHalfEnd_square (by exact hmode)]
  simp only [hall, Bool.false_eq_true, if_false]
  refine State.fireUpTo_of_none ((State.fireNext_none_iff _).mpr ⟨by exact nofun, fun h0 => ?_⟩) 3
  have := Option.some.inj h0
  omega

/-- A mode that arms the event, with a lead that leaves it a tick. -/
theorem State.clockTick_oddHalfEnd_arms (hmode : tcPulse s.countLoaded = true ∨ s.params.tcFlagAllModes = true)
    (hlead : s.params.tcLead < halfDown (lengthOf s.countLoaded).toNat) : s.clockTick = { s with
      halfEvt := some (halfDown (lengthOf s.countLoaded).toNat)
      tcEvt := some (halfDown (lengthOf s.countLoaded).toNat - s.params.tcLead)
      countEvenPhase := true
      toLevel := if tcPulse s.countLoaded then s.toLevel else false
      trace := s.trace ++ (if tcPulse s.countLoaded then [] else toChange s.toLevel false) } := by
  have hhalf := halfDown_pos hlen
  rw [State.clockTick_oddHalfEnd hh ht hodd, State.oddHalfEnd_arms (by exact hmode)]
  refine State.fireUpTo_of_none ((State.fireNext_none_iff _).mpr ⟨fun h0 => ?_, fun h0 => ?_⟩) 3
  · have hzero : halfDown (lengthOf s.countLoaded).toNat - s.params.tcLead = 0 := Option.some.inj h0
    omega
  · have hzero : halfDown (lengthOf s.countLoaded).toNat = 0 := Option.some.inj h0
    omega

/-- A mode that arms the event, with a lead that leaves it no tick: it fires at once. -/
theorem State.clockTick_oddHalfEnd_fires (hmode : tcPulse s.countLoaded = true ∨ s.params.tcFlagAllModes = true)
    (hlead : halfDown (lengthOf s.countLoaded).toNat ≤ s.params.tcLead) : s.clockTick = { s with
      halfEvt := some (halfDown (lengthOf s.countLoaded).toNat)
      tcEvt := none
      countEvenPhase := true
      toLevel := false
      status := setTimerFlag s.status
      trace := s.trace ++ toChange s.toLevel false } := by
  have hhalf := halfDown_pos hlen
  rw [State.clockTick_oddHalfEnd hh ht hodd, State.oddHalfEnd_arms (by exact hmode)]
  simp only [Nat.sub_eq_zero_of_le hlead]
  rw [State.fireUpTo_of_some (State.fireNext_tc rfl), State.tcEvent_eq, State.fireUpTo_of_none]
  · cases hp : tcPulse s.countLoaded <;> simp [toChange]
  · refine (State.fireNext_none_iff _).mpr ⟨by exact nofun, fun h0 => ?_⟩
    have := Option.some.inj h0
    omega

end

end

/-- Settles O36: no counter is pending. -/
theorem tickOnStoppedTimer : Obligations.TickOnStoppedTimer := by
  intro s hh ht
  rw [exec, execTick, State.clockTick_stopped hh ht]

/-- Settles O37, by `State.clockTick_quiet`. -/
theorem tickBetweenEvents : Obligations.TickBetweenEvents := by
  intro s h hh
  have hhalf : ∀ k, s.halfEvt = some k → 1 < k := fun k hk => by
    obtain rfl := Option.some.inj (hh.symm.trans hk)
    omega
  refine ⟨fun ht => congrArg Host.Outcome.next ?_, fun n ht => congrArg Host.Outcome.next ?_⟩
  · rw [State.clockTick_quiet hhalf (by simp [ht]), State.countDown_running hh, ht]
    rfl
  · rw [State.clockTick_quiet hhalf (by simp [ht]), State.countDown_running hh, ht]
    rfl

/-- Settles O38: the three ways the odd half ends. -/
theorem tickEndsTheOddHalf : Obligations.TickEndsTheOddHalf := by
  intro s hh ht hodd hlen
  refine ⟨fun hmode hall => congrArg Host.Outcome.next ?_, fun hmode hall hlead => congrArg Host.Outcome.next ?_,
    fun hmode hlead => congrArg Host.Outcome.next ?_, fun hmode hlead => congrArg Host.Outcome.next ?_⟩
  · rw [State.clockTick_oddHalfEnd_square hh ht hodd hlen hmode hall, ht]
    rfl
  · have hsquare : tcPulse s.countLoaded = false := hmode
    rw [State.clockTick_oddHalfEnd_arms hh ht hodd hlen (.inr hall) hlead, hsquare]
    rfl
  · have hpulse : tcPulse s.countLoaded = true := hmode
    rw [State.clockTick_oddHalfEnd_arms hh ht hodd hlen (.inl hmode) hlead, hpulse]
    simp [halfDown]
  · rw [State.clockTick_oddHalfEnd_fires hh ht hodd hlen hmode hlead, ht]
    rfl

/-- Settles O39: `State.clockTick_tc` in the two kinds of mode. -/
theorem tickFiresTerminalCount : Obligations.TickFiresTerminalCount := by
  intro s h hh ht
  refine ⟨fun hmode => congrArg Host.Outcome.next ?_, fun hmode => congrArg Host.Outcome.next ?_⟩
  · have hpulse : tcPulse s.countLoaded = true := hmode
    rw [State.clockTick_tc hh ht, State.tcEvent_eq]
    simp only [hpulse, if_true]
    rfl
  · have hsquare : tcPulse s.countLoaded = false := hmode
    rw [State.clockTick_tc hh ht, State.tcEvent_eq]
    simp [hsquare, setTimerFlag]

/-- Settles O40: the period ends in a stop. -/
theorem tickEndsThePeriodAndStops : Obligations.TickEndsThePeriodAndStops := by
  intro s hh ht heven hstop
  refine congrArg Host.Outcome.next ?_
  rw [State.clockTick_periodEnd hh ht heven,
    State.evenHalfEnd_stop rfl (by exact State.stopsAtTerminalCount_iff.mpr hstop), ht]
  rfl

/-- Settles O41: the period ends in a reload, of a length that starts the next period or of one that does not. -/
theorem tickEndsThePeriodAndReloads : Obligations.TickEndsThePeriodAndReloads := by
  intro s hh ht heven hreload hcommand
  have hstop := State.stopsAtTerminalCount_eq_false hreload hcommand
  refine ⟨fun hlong => congrArg Host.Outcome.next ?_, fun hshort => congrArg Host.Outcome.next ?_⟩
  · rw [State.clockTick_periodEnd hh ht heven, State.evenHalfEnd_reload_long (by exact hstop) (by exact hlong), ht]
    rfl
  · rw [State.clockTick_periodEnd hh ht heven, State.evenHalfEnd_reload_short rfl (by exact hstop) (by exact hshort), ht]

/-- The TO events of a terminal-count event and the end of the period after it. -/
theorem toChange_tc_periodEnd (pulse level : Bool) :
    (if pulse then toChange level false else []) ++ toChange (if pulse then false else level) true =
      if pulse then toChange level false ++ [.toPin true] else toChange level true := by
  cases pulse <;> rfl

/-- Settles O42: the terminal-count event, then the end of the period as in O40 and O41. -/
theorem terminalCountFiresFirst : Obligations.TerminalCountFiresFirst := by
  intro s es hh ht heven hes
  have htrace := hes.trans (toChange_tc_periodEnd (tcPulse s.countLoaded) s.toLevel).symm
  rw [htrace, ← List.append_assoc]
  refine ⟨fun hstop => congrArg Host.Outcome.next ?_, fun hreload hcommand => ⟨fun hlong => congrArg Host.Outcome.next ?_,
    fun hshort => congrArg Host.Outcome.next ?_⟩⟩
  · rw [State.clockTick_tc_periodEnd hh ht heven, State.tcEvent_eq,
      State.evenHalfEnd_stop rfl (by exact State.stopsAtTerminalCount_iff.mpr hstop)]
    rfl
  · have hstop := State.stopsAtTerminalCount_eq_false hreload hcommand
    rw [State.clockTick_tc_periodEnd hh ht heven, State.tcEvent_eq,
      State.evenHalfEnd_reload_long (by exact hstop) (by exact hlong)]
    rfl
  · have hstop := State.stopsAtTerminalCount_eq_false hreload hcommand
    rw [State.clockTick_tc_periodEnd hh ht heven, State.tcEvent_eq,
      State.evenHalfEnd_reload_short rfl (by exact hstop) (by exact hshort)]
    rfl

/-- Settles O43, by `fireDue_none_due`. -/
theorem tickLeavesNothingDue : Obligations.TickLeavesNothingDue := by
  intro s
  obtain ⟨htc, hhalf⟩ := (State.fireNext_none_iff _).mp (fireDue_none_due s.countDown)
  exact ⟨s.clockTick, rfl, hhalf, htc⟩

end Sys2Proof.Machine
end

section
/-! O24 (spec/10_state.md R25; spec/60_exceptions.md R214): which operations move STATUS, and, under the invariant, which
ticks set the flag. -/

namespace Sys2Proof.Machine

section
variable {s : State}

/-- STATUS after an operation: as it was, or the flag set by a tick, or cleared by a status read or a RESET. -/
theorem Effect.status_cases {i : Instr} {t : State} (h : Effect s i t) :
    t.status = s.status ∨ (t.status = setTimerFlag s.status ∧ i = .tick) ∨
    (t.status = clearTimerFlag s.status ∧ ((∃ x, i = .rdStatus x false) ∨ i = .reset)) := by
  cases h with
  | flagRead x => exact .inr (.inr ⟨rfl, .inl ⟨x, rfl⟩⟩)
  | command => rw [State.commandWrite_eq]; exact .inl rfl
  | commandStop => rw [State.timerStop_eq, State.commandWrite_eq]; exact .inl rfl
  | commandStart => rw [State.timerStart_status, State.commandWrite_eq]; exact .inl rfl
  | tick => exact s.clockTick_status.imp_right fun hset => .inl ⟨hset, rfl⟩
  | reset _ hreset =>
    obtain ⟨-, -, -, -, -, hstatus, -⟩ := execReset_fields hreset
    exact .inr (.inr ⟨hstatus, .inr rfl⟩)
  | _ => exact .inl rfl

/-! ### What a tick makes due under the invariant -/

/-- Nothing; the terminal-count event; the end of the odd half; the end of the period; or the last two events of a period
at once. -/
theorem State.Inv.tick_cases (h : s.Inv) :
    ((∀ k, s.halfEvt = some k → 1 < k) ∧ ∀ n, s.tcEvt = some n → 1 < n) ∨
    (s.tcEvt = some 1 ∧ ∃ k, s.halfEvt = some (k + 2)) ∨
    (s.tcEvt = none ∧ s.halfEvt = some 1 ∧ s.countEvenPhase = false) ∨
    (s.tcEvt = none ∧ s.halfEvt = some 1 ∧ s.countEvenPhase = true) ∨
    (s.tcEvt = some 1 ∧ s.halfEvt = some 1 ∧ s.countEvenPhase = true) := by
  cases hh : s.halfEvt with
  | none =>
    refine .inl ⟨nofun, fun n hn => ?_⟩
    obtain ⟨-, -, ⟨k, hk, -⟩, -⟩ := h.tc n hn
    cases hh.symm.trans hk
  | some k =>
    obtain ⟨hpos, -, -⟩ := h.half k hh
    cases ht : s.tcEvt with
    | none =>
      obtain rfl | hk := hpos.eq_or_lt
      · cases hp : s.countEvenPhase with
        | false => exact .inr (.inr (.inl ⟨rfl, rfl, rfl⟩))
        | true => exact .inr (.inr (.inr (.inl ⟨rfl, rfl, rfl⟩)))
      · exact .inl ⟨fun _ hk' => Option.some.inj hk' ▸ hk, nofun⟩
    | some n =>
      obtain ⟨hn, heven, ⟨m, hm, hle⟩, -⟩ := h.tc n ht
      obtain rfl := Option.some.inj (hh.symm.trans hm)
      obtain rfl | hn := hn.eq_or_lt
      · obtain rfl | hk := hpos.eq_or_lt
        · exact .inr (.inr (.inr (.inr ⟨rfl, rfl, heven⟩)))
        · exact .inr (.inl ⟨rfl, k - 2, by rw [Nat.sub_add_cancel hk]⟩)
      · exact .inl ⟨fun _ hk' => Option.some.inj hk' ▸ lt_of_lt_of_le hn hle, fun _ hn' => Option.some.inj hn' ▸ hn⟩

theorem State.evenHalfEnd_status (s : State) : s.evenHalfEnd.status = s.status := by
  unfold State.evenHalfEnd
  simp only
  split
  · rw [State.timerStop_eq, State.setTO_eq]
  · rw [State.timerReload_status, State.setTO_eq]

theorem State.tcEvent_status (s : State) : s.tcEvent.status = setTimerFlag s.status := by
  rw [State.tcEvent_eq]

/-- From the odd half's last tick: the flag is set if the mode arms the event and the lead leaves it no tick. -/
theorem State.clockTick_oddHalfEnd_status (hh : s.halfEvt = some 1) (ht : s.tcEvt = none)
    (hodd : s.countEvenPhase = false) (hlen : 2 ≤ (lengthOf s.countLoaded).toNat) :
    s.clockTick.status =
      if (tcPulse s.countLoaded = true ∨ s.params.tcFlagAllModes = true) ∧
        halfDown (lengthOf s.countLoaded).toNat ≤ s.params.tcLead then setTimerFlag s.status else s.status := by
  by_cases hmode : tcPulse s.countLoaded = true ∨ s.params.tcFlagAllModes = true
  · by_cases hlead : halfDown (lengthOf s.countLoaded).toNat ≤ s.params.tcLead
    · rw [if_pos ⟨hmode, hlead⟩, State.clockTick_oddHalfEnd_fires hh ht hodd hlen hmode hlead]
    · rw [if_neg fun hboth => hlead hboth.2, State.clockTick_oddHalfEnd_arms hh ht hodd hlen hmode (not_le.mp hlead)]
  · obtain ⟨hsquare, hall⟩ := not_or.mp hmode
    rw [if_neg fun hboth => hmode hboth.1, State.clockTick_oddHalfEnd_square hh ht hodd hlen
      (Bool.eq_false_iff.mpr hsquare) (Bool.eq_false_iff.mpr hall)]

/-- Under the invariant the flag is set exactly by a tick in which the terminal-count event fires (R185, R187, R214). -/
theorem State.Inv.clockTick_timerFlag_iff (h : s.Inv) (hclear : s.status.getLsbD 6 = false) :
    s.clockTick.status.getLsbD 6 = true ↔ s.tcEvt = some 1 ∨
      (s.halfEvt = some 1 ∧ s.countEvenPhase = false ∧
        (tcPulse s.countLoaded = true ∨ s.params.tcFlagAllModes = true) ∧
        halfDown (lengthOf s.countLoaded).toNat ≤ s.params.tcLead) := by
  have hset : (setTimerFlag s.status).getLsbD 6 = true := by rw [getLsbD_setTimerFlag, decide_eq_true rfl, Bool.or_true]
  have hkept : ¬ s.status.getLsbD 6 = true := Bool.eq_false_iff.mp hclear
  obtain ⟨hh, ht⟩ | ⟨ht, k, hk⟩ | ⟨ht, hh, hodd⟩ | ⟨ht, hh, heven⟩ | ⟨ht, hh, heven⟩ := h.tick_cases
  · rw [State.clockTick_quiet hh ht]
    exact iff_of_false hkept fun hdue => hdue.elim (fun h1 => (ht 1 h1).false) (fun h1 => (hh 1 h1.1).false)
  · rw [State.clockTick_tc hk ht, State.tcEvent_status]
    exact iff_of_true hset (.inl ht)
  · obtain ⟨-, -, hlen⟩ := h.half 1 hh
    rw [State.clockTick_oddHalfEnd_status hh ht hodd hlen, ht]
    split_ifs with hfires
    · exact iff_of_true hset (.inr ⟨hh, hodd, hfires⟩)
    · exact iff_of_false hkept fun hdue => hdue.elim nofun fun ⟨_, _, hboth⟩ => hfires hboth
  · rw [State.clockTick_periodEnd hh ht heven, State.evenHalfEnd_status, ht, heven]
    exact iff_of_false hkept fun hdue => hdue.elim nofun fun ⟨_, hodd, _⟩ => nomatch hodd
  · rw [State.clockTick_tc_periodEnd hh ht heven, State.evenHalfEnd_status, State.tcEvent_status]
    exact iff_of_true hset (.inl ht)

end

/-- Settles O24: the three cases of `Effect.status_cases`, and the ticks by `State.Inv.clockTick_timerFlag_iff`. -/
theorem timerFlagChangesOnlyAsSaid : Obligations.TimerFlagChangesOnlyAsSaid := by
  intro i s t h
  have hcases := (exec_effect h).status_cases
  refine ⟨fun k hk => ?otherBits, fun hclear hset => ?sets, fun hinv hi hclear => ?ticks, fun hset hclear => ?clears⟩
  case otherBits =>
    obtain hsame | ⟨hflag, -⟩ | ⟨hflag, -⟩ := hcases
    · rw [hsame]
    · rw [hflag, getLsbD_setTimerFlag, decide_eq_false hk, Bool.or_false]
    · rw [hflag, getLsbD_clearTimerFlag, decide_eq_true hk, Bool.and_true]
  case sets =>
    obtain hsame | ⟨-, hi⟩ | ⟨hflag, -⟩ := hcases
    · rw [hsame, hclear] at hset
      cases hset
    · exact hi
    · rw [hflag, getLsbD_clearTimerFlag, hclear] at hset
      cases hset
  case ticks =>
    subst hi
    cases h
    exact hinv.clockTick_timerFlag_iff hclear
  case clears =>
    obtain hsame | ⟨hflag, -⟩ | ⟨-, hi⟩ := hcases
    · rw [hsame, hset] at hclear
      cases hclear
    · rw [hflag, getLsbD_setTimerFlag, hset] at hclear
      cases hclear
    · exact hi

end Sys2Proof.Machine
end

section
/-! O44, O45 (spec/44_timer_engine.md R188): one period of the timer at the default parameters, half by half, and the periods
of the auto-reload modes. -/

namespace Sys2Proof.Machine

theorem State.clockTicks_succ (s : State) (k : Nat) : s.clockTicks (k + 1) = (s.clockTicks k).clockTick := by
  rw [State.clockTicks_add]
  rfl

/-- At the default parameters, the first instant of a period of length `L`. -/
structure State.AtPeriodStart (s : State) (L : Nat) : Prop where
  params : s.params = Config.Params.standard
  half : s.halfEvt = some (halfUp L)
  tc : s.tcEvt = none
  odd : s.countEvenPhase = false
  high : s.toLevel = true
  length : (lengthOf s.countLoaded).toNat = L
  long : 2 ≤ L

/-- The state of a period one tick before its end, from the state at its start: one low pulse has begun, and a TC_PULSE
mode has set the flag. -/
def State.beforeLastTick (s : State) : State :=
  { s with
    halfEvt := some 1
    tcEvt := none
    countEvenPhase := true
    toLevel := false
    status := if tcPulse s.countLoaded then setTimerFlag s.status else s.status
    trace := s.trace ++ [.toPin false] }

section
variable {s : State} {L : Nat} (h : s.AtPeriodStart L)
include h

/-! ### The odd half -/

theorem State.AtPeriodStart.oddHalf {k : Nat} (hk : k < halfUp L) :
    s.clockTicks k = { s with halfEvt := some (halfUp L - k) } := by
  rw [State.clockTicks_quiet k (by simp [h.half, hk]) (by simp [h.tc]), h.half, h.tc]
  rfl

/-- The tick that ends the odd half comes from a state with one tick left. -/
theorem State.AtPeriodStart.clockTicks_halfUp :
    s.clockTicks (halfUp L) = ({ s with halfEvt := some 1 } : State).clockTick := by
  have hpos : 1 ≤ halfUp L := halfUp_pos (by have := h.long; omega)
  obtain ⟨m, hm⟩ := Nat.exists_eq_add_of_le' hpos
  rw [hm, State.clockTicks_succ, h.oddHalf (by omega), hm, Nat.add_sub_cancel_left]

/-! ### The even half of a square-wave mode -/

theorem State.AtPeriodStart.evenHalf_square (hmode : tcPulse s.countLoaded = false) {k : Nat} (hk : k < halfDown L) :
    s.clockTicks (halfUp L + k) = { s with
      halfEvt := some (halfDown L - k)
      tcEvt := none
      countEvenPhase := true
      toLevel := false
      trace := s.trace ++ [.toPin false] } := by
  have hall : s.params.tcFlagAllModes = false := by rw [h.params]; rfl
  have hodd := State.clockTick_oddHalfEnd_square (s := { s with halfEvt := some 1 }) rfl h.tc h.odd
    (by exact h.length ▸ h.long) hmode hall
  simp only [h.length] at hodd
  rw [State.clockTicks_add, h.clockTicks_halfUp, hodd, State.clockTicks_quiet k (by simp [hk]) (by simp), h.high]
  rfl

/-! ### The even half of a TC_PULSE mode -/

theorem State.AtPeriodStart.evenHalf_pulse (hmode : tcPulse s.countLoaded = true) {k : Nat} (hk : k + 1 < halfDown L) :
    s.clockTicks (halfUp L + k) = { s with
      halfEvt := some (halfDown L - k)
      tcEvt := some (halfDown L - 1 - k)
      countEvenPhase := true } := by
  have hlead : s.params.tcLead = 1 := by rw [h.params]; rfl
  have hodd := State.clockTick_oddHalfEnd_arms (s := { s with halfEvt := some 1 }) rfl h.tc h.odd
    (by exact h.length ▸ h.long) (.inl hmode) (by simp only [h.length, hlead]; omega)
  simp only [h.length, hmode, hlead, if_true, List.append_nil] at hodd
  rw [State.clockTicks_add, h.clockTicks_halfUp, hodd, State.clockTicks_quiet k (by simp; omega) (by simp; omega)]
  rfl

/-- The tick before the last: in a TC_PULSE mode the one on which the terminal-count event fires, at once where the even
half has a single tick. -/
theorem State.AtPeriodStart.clockTicks_pred : s.clockTicks (L - 1) = s.beforeLastTick := by
  have hlong := h.long
  have hsum := halfUp_add_halfDown L
  have hdown := halfDown_pos hlong
  cases hmode : tcPulse s.countLoaded with
  | false =>
    rw [show L - 1 = halfUp L + (halfDown L - 1) by omega, h.evenHalf_square hmode (by omega),
      show halfDown L - (halfDown L - 1) = 1 by omega, State.beforeLastTick]
    simp only [hmode, Bool.false_eq_true, if_false]
  | true =>
    obtain hone | hmore := hdown.eq_or_lt
    · have hlead : s.params.tcLead = 1 := by rw [h.params]; rfl
      have hodd := State.clockTick_oddHalfEnd_fires (s := { s with halfEvt := some 1 }) rfl h.tc h.odd
        (by exact h.length ▸ h.long) (.inl hmode) (by simp only [h.length, hlead]; omega)
      simp only [h.length, ← hone] at hodd
      rw [show L - 1 = halfUp L by omega, h.clockTicks_halfUp, hodd, State.beforeLastTick, h.high]
      simp only [hmode, if_true]
      rfl
    · rw [show L - 1 = halfUp L + (halfDown L - 2) + 1 by omega, State.clockTicks_succ,
        h.evenHalf_pulse hmode (by omega), show halfDown L - (halfDown L - 2) = 0 + 2 by omega,
        show halfDown L - 1 - (halfDown L - 2) = 1 by omega, State.clockTick_tc rfl rfl, State.tcEvent_eq,
        State.beforeLastTick]
      simp only [hmode, if_true, h.high]
      rfl

/-! ### The whole period -/

/-- The waveform: the level and the flag at each tick before the last. -/
theorem State.AtPeriodStart.waveform {k : Nat} (hk : k < L) :
    (s.clockTicks k).halfEvt ≠ none ∧
    (s.clockTicks k).toLevel = (if tcPulse s.countLoaded then decide (k < L - 1) else decide (k < halfUp L)) ∧
    (s.clockTicks k).status =
      (if tcPulse s.countLoaded = true ∧ L - 1 ≤ k then setTimerFlag s.status else s.status) := by
  have hlong := h.long
  have hsum := halfUp_add_halfDown L
  have hdown := halfDown_pos hlong
  rcases Nat.lt_or_ge k (halfUp L) with hodd | heven
  · rw [h.oddHalf hodd]
    refine ⟨nofun, ?_, ?_⟩
    · rw [decide_eq_true hodd, decide_eq_true (by omega : k < L - 1), ite_self]
      exact h.high
    · rw [if_neg (by omega)]
  · obtain ⟨j, rfl⟩ := Nat.exists_eq_add_of_le heven
    cases hmode : tcPulse s.countLoaded with
    | false =>
      rw [h.evenHalf_square hmode (by omega)]
      exact ⟨nofun, by simp, by simp⟩
    | true =>
      obtain hlast | hbefore := Nat.lt_or_ge (halfUp L + j) (L - 1)
      · rw [h.evenHalf_pulse hmode (by omega)]
        exact ⟨nofun, by simpa [hlast] using h.high, by rw [if_neg (by omega)]⟩
      · rw [show halfUp L + j = L - 1 by omega, h.clockTicks_pred, State.beforeLastTick, hmode]
        exact ⟨nofun, by simp, by simp⟩

/-- The last tick. -/
theorem State.AtPeriodStart.clockTicks_length :
    s.clockTicks L = ({ s.beforeLastTick with halfEvt := none } : State).evenHalfEnd := by
  have hlong := h.long
  rw [show L = L - 1 + 1 by omega, State.clockTicks_succ, h.clockTicks_pred]
  exact State.clockTick_periodEnd rfl rfl rfl

/-- In a mode without AUTO_RELOAD, or with STOP AFTER TC held, the period ends in a stop (R184). -/
theorem State.AtPeriodStart.period_stop (hstop : s.stopsAtTerminalCount = true) :
    s.clockTicks L = { s.beforeLastTick with
      halfEvt := none
      countEvenPhase := false
      toLevel := true
      trace := s.trace ++ [.toPin false] ++ [.toPin true] } := by
  rw [h.clockTicks_length, State.evenHalfEnd_stop rfl (by exact hstop)]
  rfl

/-- Else the next period starts with the programmed values. -/
theorem State.AtPeriodStart.period_reload (hreload : s.stopsAtTerminalCount = false)
    (hnext : 2 ≤ (lengthOf s.countLength).toNat) : s.clockTicks L = { s.beforeLastTick with
      countLoaded := s.countLength
      halfEvt := some (halfUp (lengthOf s.countLength).toNat)
      countEvenPhase := false
      toLevel := true
      trace := s.trace ++ [.toPin false] ++ [.toPin true] } := by
  rw [h.clockTicks_length, State.evenHalfEnd_reload_long (by exact hreload) (by exact hnext)]
  rfl

/-- With the same values programmed the period ends where it began, one low pulse later. -/
theorem State.AtPeriodStart.period_repeats (hreload : s.stopsAtTerminalCount = false)
    (hprogrammed : s.countLength = s.countLoaded) : s.clockTicks L = { s with
      trace := s.trace ++ [.toPin false, .toPin true]
      status := if tcPulse s.countLoaded then setTimerFlag s.status else s.status } := by
  rw [h.period_reload hreload (by rw [hprogrammed, h.length]; exact h.long)]
  simp only [State.beforeLastTick, hprogrammed, h.length, h.half, h.tc, h.odd, h.high, List.append_assoc]
  rfl

end

/-! ### From a START (R181) -/

section
variable {s t : State} {x : BitVec 5} {d : Byte}

/-- A START from Stopped is at the start of a period of the programmed length. -/
theorem start_atPeriodStart (hparams : s.params = Config.Params.standard) (hh : s.halfEvt = none)
    (ht : s.tcEvt = none) (hlong : 2 ≤ (lengthOf s.countLength).toNat) (h : exec (.wrCmdStart x d) s = .next t) :
    t.AtPeriodStart (lengthOf s.countLength).toNat := by
  cases h
  rw [State.commandWrite_timerStart_long d hh hlong]
  exact ⟨hparams, rfl, ht, rfl, rfl, rfl, hlong⟩

/-- The registers a period of it reads. -/
theorem start_registers (hh : s.halfEvt = none) (hlong : 2 ≤ (lengthOf s.countLength).toNat)
    (h : exec (.wrCmdStart x d) s = .next t) :
    t.command = d ∧ t.countLength = s.countLength ∧ t.countLoaded = s.countLength ∧ t.status = s.status := by
  cases h
  rw [State.commandWrite_timerStart_long d hh hlong]
  exact ⟨rfl, rfl, rfl, rfl⟩

/-- COMMAND holding START, only a mode without AUTO_RELOAD ends the period in a stop. -/
theorem State.stopsAtTerminalCount_start (hcommand : s.command.extractLsb' 6 2 = 0b11#2) :
    s.stopsAtTerminalCount = !autoReload s.countLoaded := by
  have htm : timerCommand s.command = 0b11#2 := hcommand
  rw [State.stopsAtTerminalCount, htm]
  exact Bool.or_false _

/-- Settles O44: a START begins a period, whose waveform is `State.AtPeriodStart.waveform` and which ends in a stop or a
reload of the same values. -/
theorem onePeriodWaveform : Obligations.OnePeriodWaveform := by
  intro s t x d L hparams hh ht hL hlong hd h
  subst hL
  have hstart := start_atPeriodStart hparams hh ht hlong h
  obtain ⟨hcommand, hlength, hloaded, hstatus⟩ := start_registers hh hlong h
  have hstop : t.stopsAtTerminalCount = !autoReload s.countLength := by
    rw [State.stopsAtTerminalCount_start (hcommand ▸ hd), hloaded]
  refine ⟨fun k hk => ?_, ?_⟩
  · have hwave := hstart.waveform hk
    rw [hstatus, hloaded] at hwave
    exact hwave
  · cases hauto : autoReload s.countLength with
    | false =>
      rw [hstart.period_stop (by rw [hstop, hauto]; rfl)]
      exact ⟨rfl, hloaded, rfl, fun _ => rfl, fun hreload => absurd (hauto.symm.trans hreload) Bool.false_ne_true⟩
    | true =>
      rw [hstart.period_reload (by rw [hstop, hauto]; rfl) (hlength ▸ hlong), hlength]
      exact ⟨rfl, rfl, rfl, fun hnone => absurd (hnone.symm.trans hauto) Bool.false_ne_true, fun _ => ⟨rfl, rfl⟩⟩

end

/-- Periods of the auto-reload modes, from the start of one (R188). -/
theorem State.AtPeriodStart.periods_repeat {s : State} {L : Nat} (h : s.AtPeriodStart L)
    (hreload : s.stopsAtTerminalCount = false) (hprogrammed : s.countLength = s.countLoaded) (n : Nat) :
    s.clockTicks ((n + 1) * L) = { s with
      trace := s.trace ++ (List.replicate (n + 1) [Event.toPin false, Event.toPin true]).flatten
      status := if tcPulse s.countLoaded then setTimerFlag s.status else s.status } := by
  induction n generalizing s with
  | zero =>
    rw [Nat.zero_add, Nat.one_mul, h.period_repeats hreload hprogrammed]
    rfl
  | succ n ih =>
    have hagain : (s.clockTicks L).AtPeriodStart L := by
      rw [h.period_repeats hreload hprogrammed]
      exact ⟨h.params, h.half, h.tc, h.odd, h.high, h.length, h.long⟩
    rw [show (n + 1 + 1) * L = L + (n + 1) * L by ring, State.clockTicks_add, ih hagain]
    all_goals rw [h.period_repeats hreload hprogrammed]
    · cases hmode : tcPulse s.countLoaded <;>
        simp [setTimerFlag_twice, List.replicate_succ (n := n + 1)]
    · exact hreload
    · exact hprogrammed

/-- Settles O45: the START begins a period of the values programmed, and every period ends where it began. -/
theorem autoReloadRepeatsForever : Obligations.AutoReloadRepeatsForever := by
  intro s t x d L n hparams hh ht hL hlong hauto hd h
  subst hL
  have hstart := start_atPeriodStart hparams hh ht hlong h
  obtain ⟨hcommand, hlength, hloaded, -⟩ := start_registers hh hlong h
  have hreload : t.stopsAtTerminalCount = false := by
    rw [State.stopsAtTerminalCount_start (hcommand ▸ hd), hloaded]
    exact congrArg (!·) hauto
  rw [← hloaded] at hstart ⊢
  exact hstart.periods_repeat hreload (hlength.trans hloaded.symm) n

end Sys2Proof.Machine
end
